-- ==== Sys2Proof/Word.lean ====
section
/-!
DEFINITION. The word types of ps2kbd-core: the byte that crosses the interface, the 7-bit base code,
the 10-bit transaction word, the 32-bit ROM word (00_scope.md R11; 30_encoding.md R70, R77, R81).
-/
namespace Sys2Proof

/-- One byte, `v[7:0]` (R11). The spec's `UInt8` of R76 is this type. DESIGN CHOICE, safe: log entry 14. -/
abbrev Byte := BitVec 8

/-- A base code, `b[6:0]` (30_encoding.md R77). -/
abbrev Code := BitVec 7

/-- A transaction word `T[9:0]` (30_encoding.md R70). -/
abbrev TWord := BitVec 10

end Sys2Proof
end

