-- ==== Sys2Proof/Config.lean ====
section
/-!
DEFINITION. The parameters of 00_scope.md R9: those a machine takes as arguments (`Params`) with the values
this hardware takes (`hw`), the OPEN ones, and the free values of 93_implementation_defined.md (U3, U4). The parameter `ROM` is a field of State.
-/
namespace Sys2Proof.Config

/-- The parameters a machine takes as arguments, the rows of R9's table (`ROM` is an argument of its own). -/
structure Params where
  /-- `CAPACITY`, the bytes in the FIFO: any number from 1 on (U12) -/
  capacity : Nat
  /-- `ROM_DEPTH`, the words of the ROM (41_scancode_rom.md R121) -/
  romDepth : Nat
  /-- `PREFIX` -/
  extByte : Byte
  /-- `RELEASE_MASK` -/
  releaseMask : Byte
  /-- `BASE_MASK` -/
  baseMask : Byte
  /-- `SHIFT_L`, not given by the source (R10, U8), like the three after it -/
  shiftL : Code
  /-- `SHIFT_R` -/
  shiftR : Code
  /-- `CAPS` -/
  caps : Code
  /-- `NUM` -/
  num : Code
  /-- `LETTER_RANGES`, each with both ends included; not given by the source (R10, U9) -/
  letterRanges : List (Code × Code)
  deriving DecidableEq, Repr

/-- The values this hardware takes (R9). The capacity, the positions and the ranges are decisions D8, D9 and D19 of
92_eei_decisions.md: UNVERIFIED, unsafe for a block that has others, log entry 11. -/
def hw : Params where
  capacity := 100
  romDepth := 94
  extByte := 0xE0
  releaseMask := 0x80
  baseMask := 0x7F
  shiftL := 0x2A
  shiftR := 0x36
  caps := 0x3A
  num := 0x45
  letterRanges := [(0x10, 0x19), (0x1E, 0x26), (0x2C, 0x32)]

/-- `KBD_DATA_PORT`, left OPEN (R9, D15): no rule depends on it. -/
opaque kbdDataPort : Nat

/-- `KBD_VECTOR`, left OPEN (R9, D15): no rule depends on it. -/
opaque kbdVector : Nat

/-- FREE VALUE (U3): the byte a `STORE` slot holds that nothing has written since power-on. DESIGN CHOICE, safe:
log entry 3. -/
opaque storePowerOn : Nat → Byte

/-- FREE VALUE (U4, R76): the data wires of the `n`-th GETCHAR result when it is `none`. DESIGN CHOICE,
safe: log entry 7. -/
opaque freeWireData : Nat → Byte

/-- The fewest bits that hold every value from 0 to `largest` (10_state.md R30). -/
def indexWidth (largest : Nat) : Nat := if largest = 0 then 0 else largest.log2 + 1

end Sys2Proof.Config
end

