-- ==== Sys2Proof/Syntax.lean ====
section
/-!
DEFINITION. The transactions of the block: one constructor per row of spec/opcode_table.json. Beside
them the byte classes of 30_encoding.md R78 and the assembler's pseudo-transactions of R82.
-/
namespace Sys2Proof

/-- The transactions, in the table's order. Only KEY_BRK and KEY_MK leave bits open: their base code. -/
inductive Instr where
  /-- DECODE.PREFIX, word 0x0E0 (42_decoder.md R152) -/
  | extPrefix
  /-- DECODE.SHIFT_L_MK, word 0x02A (R154) -/
  | shiftLMk
  /-- DECODE.SHIFT_R_MK, word 0x036 (R154) -/
  | shiftRMk
  /-- DECODE.SHIFT_L_BRK, word 0x0AA (R154) -/
  | shiftLBrk
  /-- DECODE.SHIFT_R_BRK, word 0x0B6 (R154) -/
  | shiftRBrk
  /-- DECODE.CAPS_BRK, word 0x0BA (R156) -/
  | capsBrk
  /-- DECODE.NUM_BRK, word 0x0C5 (R157) -/
  | numBrk
  /-- DECODE.CAPS_MK, word 0x03A (R155) -/
  | capsMk
  /-- DECODE.NUM_MK, word 0x045 (R158) -/
  | numMk
  /-- DECODE.KEY_BRK, any other byte with bit 7 set (R159) -/
  | keyBrk (code : Code)
  /-- DECODE.KEY_MK, any other byte with bit 7 clear (R160) -/
  | keyMk (code : Code)
  /-- GETCHAR, word 0x100 (43_driver_api.md R185) -/
  | getchar
  /-- INIT, word 0x200 (R181) -/
  | init
  deriving DecidableEq, Repr

/-- The nine classes of a DECODE byte, 30_encoding.md R78. -/
inductive ByteClass where
  /-- PREFIX, priority 1 -/
  | extPrefix
  /-- SHIFT_MK, priority 2 -/
  | shiftMk
  /-- SHIFT_BRK, priority 2 -/
  | shiftBrk
  /-- CAPS_BRK, priority 3 -/
  | capsBrk
  /-- NUM_BRK, priority 4 -/
  | numBrk
  /-- CAPS_MK, priority 5 -/
  | capsMk
  /-- NUM_MK, priority 5 -/
  | numMk
  /-- KEY_BRK, priority 6 -/
  | keyBrk
  /-- KEY_MK, priority 6 -/
  | keyMk
  deriving DecidableEq, Repr

/-- The assembler's lines, 30_encoding.md R82: the three transactions and the four pseudo-transactions. -/
inductive AsmLine where
  /-- `DECODE 0xNN` -/
  | decode (b : Byte)
  /-- `GETCHAR` -/
  | getchar
  /-- `INIT` -/
  | init
  /-- `TAP 0xNN`, with `NN < 0x80` -/
  | tap (code : Code)
  /-- `EXT 0xNN` -/
  | ext (b : Byte)
  /-- `SHIFTDOWN` -/
  | shiftDown
  /-- `SHIFTUP` -/
  | shiftUp
  deriving DecidableEq, Repr

end Sys2Proof
end

