-- ==== Sys2Proof/Decode.lean ====
section
/-!
DEFINITION. The decoder of transaction words, total and rejecting by name (30_encoding.md R70 to R80),
the classifiers it reads (41_scancode_rom.md R125 to R127), the encoder, and the assembler of R82.
Everything takes the parameters of 00_scope.md R9, whose default is this hardware's; `step` gives them the machine's.
-/
namespace Sys2Proof

/-! ## The scancode byte (R77) -/

/-- `isRelease = (b & RELEASE_MASK) != 0` (R77; 00_scope.md R9). -/
def isRelease (b : Byte) (P : Config.Params := Config.hw) : Bool := (b &&& P.releaseMask) != 0

/-- `baseCode = b & BASE_MASK`, 7 bits (R77; 00_scope.md R9). -/
def baseCode (b : Byte) (P : Config.Params := Config.hw) : Code := (b &&& P.baseMask).setWidth 7

/-- The byte with this base code, and the release bit set or not (R77): with RELEASE_MASK 0x80, `{release, code}`. -/
def byteOf (release : Bool) (code : Code) (P : Config.Params := Config.hw) : Byte :=
  code.setWidth 8 ||| if release then P.releaseMask else 0

/-- 41_scancode_rom.md R125. -/
def isShiftKey (code : Code) (P : Config.Params := Config.hw) : Bool :=
  code == P.shiftL || code == P.shiftR

/-- R126. -/
def isCapsLockKey (code : Code) (P : Config.Params := Config.hw) : Bool := code == P.caps

/-- R127. -/
def isNumLockKey (code : Code) (P : Config.Params := Config.hw) : Bool := code == P.num

/-- The class of a DECODE byte: the first row of R78's table that holds. -/
def byteClass (b : Byte) (P : Config.Params := Config.hw) : ByteClass :=
  let code := baseCode b P
  if b = P.extByte then .extPrefix
  else if isShiftKey code P then (if isRelease b P then .shiftBrk else .shiftMk)
  else if isCapsLockKey code P && isRelease b P then .capsBrk
  else if isNumLockKey code P && isRelease b P then .numBrk
  else if isCapsLockKey code P then .capsMk
  else if isNumLockKey code P then .numMk
  else if isRelease b P then .keyBrk
  else .keyMk

/-- The row of the opcode table for a class: the shift classes have a row for each of the two keys. -/
def ByteClass.row (c : ByteClass) (code : Code) (P : Config.Params := Config.hw) : Instr :=
  match c with
  | .extPrefix => .extPrefix
  | .shiftMk => if code = P.shiftL then .shiftLMk else .shiftRMk
  | .shiftBrk => if code = P.shiftL then .shiftLBrk else .shiftRBrk
  | .capsBrk => .capsBrk
  | .numBrk => .numBrk
  | .capsMk => .capsMk
  | .numMk => .numMk
  | .keyBrk => .keyBrk code
  | .keyMk => .keyMk code

/-- The transaction that `DECODE b` is; every byte is one (R71). -/
def decodeOf (b : Byte) (P : Config.Params := Config.hw) : Instr := (byteClass b P).row (baseCode b P) P

/-! ## The transaction word (R70) -/

/-- `op = T[9:8]`. -/
def opOf (w : TWord) : BitVec 2 := w.extractLsb' 8 2

/-- `data = T[7:0]`. -/
def dataOf (w : TWord) : Byte := w.extractLsb' 0 8

/-- The word `{op, data}`. -/
def wordOf (op : BitVec 2) (data : Byte) : TWord := op ++ data

/-- Why a word spells no transaction (U6). -/
inductive Reject where
  /-- `op` = 0b11 (R73) -/
  | reservedOp
  /-- GETCHAR or INIT with non-zero `data` (R72) -/
  | dataNotZero
  deriving DecidableEq, Repr

/-- The verdict on a word (R74). -/
inductive Verdict where
  /-- exactly one transaction -/
  | transaction (i : Instr)
  /-- the verdict "refused", by name -/
  | reject (why : Reject)
  deriving DecidableEq, Repr

/-- The decoder, total on the 10-bit words: `op` first (R74). -/
def decode (w : TWord) (P : Config.Params := Config.hw) : Verdict :=
  if opOf w = 0b00 then .transaction (decodeOf (dataOf w) P)
  else if opOf w = 0b01 then (if dataOf w = 0 then .transaction .getchar else .reject .dataNotZero)
  else if opOf w = 0b10 then (if dataOf w = 0 then .transaction .init else .reject .dataNotZero)
  else .reject .reservedOp

/-- The encoder: the word of a transaction, from R70's fields and R78's conditions. -/
def encode (i : Instr) (P : Config.Params := Config.hw) : TWord :=
  match i with
  | .extPrefix => wordOf 0b00 P.extByte
  | .shiftLMk => wordOf 0b00 (byteOf false P.shiftL P)
  | .shiftRMk => wordOf 0b00 (byteOf false P.shiftR P)
  | .shiftLBrk => wordOf 0b00 (byteOf true P.shiftL P)
  | .shiftRBrk => wordOf 0b00 (byteOf true P.shiftR P)
  | .capsBrk => wordOf 0b00 (byteOf true P.caps P)
  | .numBrk => wordOf 0b00 (byteOf true P.num P)
  | .capsMk => wordOf 0b00 (byteOf false P.caps P)
  | .numMk => wordOf 0b00 (byteOf false P.num P)
  | .keyBrk code => wordOf 0b00 (byteOf true code P)
  | .keyMk code => wordOf 0b00 (byteOf false code P)
  | .getchar => wordOf 0b01 0
  | .init => wordOf 0b10 0

/-- Which transactions are classes of DECODE, `op` = 0b00. -/
def Instr.isDecode : Instr → Bool
  | .getchar | .init => false
  | .extPrefix | .shiftLMk | .shiftRMk | .shiftLBrk | .shiftRBrk => true
  | .capsBrk | .numBrk | .capsMk | .numMk | .keyBrk _ | .keyMk _ => true

/-! ## Words as the opcode table numbers them -/

/-- The value of a table word: the bits above `nbits` are 0. -/
def tableValue (nbits w : Nat) : Nat := w % 2 ^ nbits

/-- What the decoder reads from a table word. A value of more than 10 bits is no transaction word (DESIGN CHOICE, safe: log entry 16). -/
def decodeTableWord (nbits w : Nat) : Option Instr :=
  if tableValue nbits w < 1024 then
    match decode (BitVec.ofNat 10 (tableValue nbits w)) with
    | .transaction i => some i
    | .reject _ => none
  else none

/-! ## The assembler (R82) -/

/-- The words of an assembler line (R82). -/
def AsmLine.words : AsmLine → List TWord
  | .decode b => [wordOf 0b00 b]
  | .getchar => [0x100]
  | .init => [0x200]
  | .tap code => [wordOf 0b00 (byteOf false code), wordOf 0b00 (byteOf true code)]
  | .ext b => [wordOf 0b00 0xE0, wordOf 0b00 b]
  | .shiftDown => [wordOf 0b00 0x2A]
  | .shiftUp => [wordOf 0b00 0xAA]

/-- A program is one line per transaction, in schedule order (R82). -/
def assemble (program : List AsmLine) : List TWord := program.flatMap AsmLine.words

end Sys2Proof
end

