-- ==== Sys2Proof/WellFormed.lean ====
section
/-!
DEFINITION. Which transactions and which parameters are well formed: every byte the class table of
30_encoding.md R78 needs is read back as the fields it was written from and is not the prefix, and a KEY class
holds no modifier position (R78, R79).
-/
namespace Sys2Proof

/-- The byte of a release bit and a base code is read back as them (R77) and is not shadowed by the prefix (R79). With
this hardware's masks and prefix this holds of all but the release of 0x60. -/
def Config.Params.spells (P : Config.Params) (release : Bool) (code : Code) : Bool :=
  let b := byteOf release code P
  isRelease b P == release && baseCode b P == code && b != P.extByte

/-- The four modifier positions (00_scope.md R9). -/
def Config.Params.positions (P : Config.Params) : List Code := [P.shiftL, P.shiftR, P.caps, P.num]

/-- Four distinct dedicated positions whose make and break bytes can be spelt: what the class table of R78 needs to
have a word for each class and key. -/
def Config.Params.wf (P : Config.Params) : Bool :=
  decide P.positions.Nodup && P.positions.all fun c => P.spells false c && P.spells true c

/-- Every transaction the encoding can spell: a KEY class byte is none of the bytes of the classes above it
in R78. -/
def Instr.wf (i : Instr) (P : Config.Params := Config.hw) : Bool :=
  match i with
  | .keyBrk code => !P.positions.contains code && P.spells true code
  | .keyMk code => !P.positions.contains code && P.spells false code
  | .extPrefix | .shiftLMk | .shiftRMk | .shiftLBrk | .shiftRBrk => true
  | .capsBrk | .numBrk | .capsMk | .numMk | .getchar | .init => true

end Sys2Proof
end

