-- ==== Sys2Proof/Machine/Rom.lean ====
section
/-!
DEFINITION. The scancode lookup ROM: its words and their layout (30_encoding.md R81), LOOKUP in its two
forms and the ROM conditions (41_scancode_rom.md R120 to R133), and the reference fill (R131).
-/
namespace Sys2Proof.Machine

/-- One ROM word, the ScancodeEntry of R120. -/
structure ScancodeEntry where
  /-- the scancode the entry maps; 0 marks an unassigned position -/
  raw : Byte
  /-- the character when the effective shift is 0 -/
  unshifted : Byte
  /-- the character when it is 1 -/
  shifted : Byte
  /-- the virtual key code, which no rule reads (R132) -/
  vk : Byte
  deriving DecidableEq, Repr

/-- The ROM, its words in position order (R121). -/
abbrev Rom := List ScancodeEntry

/-- The 32-bit layout of a ROM word (30_encoding.md R81): `raw` in bits 7:0 up to `vk` in 31:24. -/
def ScancodeEntry.toWord (e : ScancodeEntry) : BitVec 32 := e.vk ++ (e.shifted ++ (e.unshifted ++ e.raw))

/-- The entry a 32-bit ROM word holds (R81). -/
def ScancodeEntry.ofWord (w : BitVec 32) : ScancodeEntry where
  raw := w.extractLsb' 0 8
  unshifted := w.extractLsb' 8 8
  shifted := w.extractLsb' 16 8
  vk := w.extractLsb' 24 8

/-- An entry answers for a base code: `e.raw == code and e.raw != 0` (R123). -/
def ScancodeEntry.answers (e : ScancodeEntry) (code : Code) : Bool :=
  e.raw == code.setWidth 8 && e.raw != 0

/-- LOOKUP, the linear scan for the first match (R123). -/
def lookup (rom : Rom) (code : Code) : Option ScancodeEntry := rom.find? (·.answers code)

/-- LOOKUP in its direct-indexed form (R124). -/
def lookupDirect (rom : Rom) (code : Code) (P : Config.Params := Config.hw) : Option ScancodeEntry :=
  if code.toNat < P.romDepth then rom[code.toNat]?.filter (·.raw != 0) else none

/-- The position invariant R122 for the words from position `i` on: `raw` is 0 or the position. -/
def Rom.positionedFrom (i : Nat) : Rom → Bool
  | [] => true
  | e :: rest => (e.raw == 0 || e.raw.toNat == i) && Rom.positionedFrom (i + 1) rest

/-- R122. -/
def Rom.positioned (rom : Rom) : Bool := Rom.positionedFrom 0 rom

/-- R129(b) at one position: the entry is absent or has both characters 0. -/
def Rom.silentAt (rom : Rom) (code : Code) : Bool :=
  match rom[code.toNat]? with
  | none => true
  | some e => e.raw == 0 || (e.unshifted == 0 && e.shifted == 0)

/-- A ROM of this block: `ROM_DEPTH` words (R121), R122 and R129. A ROM that is not is refused (U13). -/
def Rom.wf (rom : Rom) (P : Config.Params := Config.hw) : Bool :=
  rom.length == P.romDepth && Rom.positioned rom && Rom.silentAt rom P.caps && Rom.silentAt rom P.num

/-- The position holds a key with these two characters. -/
def Rom.holds (rom : Rom) (code : Code) (unshifted shifted : Byte) : Bool :=
  match lookup rom code with
  | none => false
  | some e => e.unshifted == unshifted && e.shifted == shifted

/-- The entries the source fixes, in every ROM parameter (R130). -/
def Rom.holdsFixedKeys (rom : Rom) : Bool :=
  Rom.holds rom 0x1E 0x61 0x41 && Rom.holds rom 0x02 0x31 0x21 && Rom.holds rom 0x03 0x32 0x40

/-- The same ROM with every virtual key code 0: all that a transaction may depend on (R132). -/
def Rom.withoutVk (rom : Rom) : Rom := rom.map fun e => { e with vk := 0 }

/-! ## The reference fill (R131)

One entry a position: raw, unshifted, shifted, vk. The spec's own decision D10. -/

/-- R131, positions 0x00 to 0x0F. -/
def fill0 : Rom :=
  [⟨0x00, 0x00, 0x00, 0⟩, ⟨0x01, 0x1B, 0x1B, 0⟩, ⟨0x02, 0x31, 0x21, 0⟩, ⟨0x03, 0x32, 0x40, 0⟩,
   ⟨0x04, 0x33, 0x23, 0⟩, ⟨0x05, 0x34, 0x24, 0⟩, ⟨0x06, 0x35, 0x25, 0⟩, ⟨0x07, 0x36, 0x5E, 0⟩,
   ⟨0x08, 0x37, 0x26, 0⟩, ⟨0x09, 0x38, 0x2A, 0⟩, ⟨0x0A, 0x39, 0x28, 0⟩, ⟨0x0B, 0x30, 0x29, 0⟩,
   ⟨0x0C, 0x2D, 0x5F, 0⟩, ⟨0x0D, 0x3D, 0x2B, 0⟩, ⟨0x0E, 0x08, 0x08, 0⟩, ⟨0x0F, 0x09, 0x09, 0⟩]

/-- R131, positions 0x10 to 0x1F. -/
def fill1 : Rom :=
  [⟨0x10, 0x71, 0x51, 0⟩, ⟨0x11, 0x77, 0x57, 0⟩, ⟨0x12, 0x65, 0x45, 0⟩, ⟨0x13, 0x72, 0x52, 0⟩,
   ⟨0x14, 0x74, 0x54, 0⟩, ⟨0x15, 0x79, 0x59, 0⟩, ⟨0x16, 0x75, 0x55, 0⟩, ⟨0x17, 0x69, 0x49, 0⟩,
   ⟨0x18, 0x6F, 0x4F, 0⟩, ⟨0x19, 0x70, 0x50, 0⟩, ⟨0x1A, 0x5B, 0x7B, 0⟩, ⟨0x1B, 0x5D, 0x7D, 0⟩,
   ⟨0x1C, 0x0A, 0x0A, 0⟩, ⟨0x1D, 0x00, 0x00, 0⟩, ⟨0x1E, 0x61, 0x41, 0⟩, ⟨0x1F, 0x73, 0x53, 0⟩]

/-- R131, positions 0x20 to 0x2F. -/
def fill2 : Rom :=
  [⟨0x20, 0x64, 0x44, 0⟩, ⟨0x21, 0x66, 0x46, 0⟩, ⟨0x22, 0x67, 0x47, 0⟩, ⟨0x23, 0x68, 0x48, 0⟩,
   ⟨0x24, 0x6A, 0x4A, 0⟩, ⟨0x25, 0x6B, 0x4B, 0⟩, ⟨0x26, 0x6C, 0x4C, 0⟩, ⟨0x27, 0x3B, 0x3A, 0⟩,
   ⟨0x28, 0x27, 0x22, 0⟩, ⟨0x29, 0x60, 0x7E, 0⟩, ⟨0x2A, 0x00, 0x00, 0⟩, ⟨0x2B, 0x5C, 0x7C, 0⟩,
   ⟨0x2C, 0x7A, 0x5A, 0⟩, ⟨0x2D, 0x78, 0x58, 0⟩, ⟨0x2E, 0x63, 0x43, 0⟩, ⟨0x2F, 0x76, 0x56, 0⟩]

/-- R131, positions 0x30 to 0x3F. -/
def fill3 : Rom :=
  [⟨0x30, 0x62, 0x42, 0⟩, ⟨0x31, 0x6E, 0x4E, 0⟩, ⟨0x32, 0x6D, 0x4D, 0⟩, ⟨0x33, 0x2C, 0x3C, 0⟩,
   ⟨0x34, 0x2E, 0x3E, 0⟩, ⟨0x35, 0x2F, 0x3F, 0⟩, ⟨0x36, 0x00, 0x00, 0⟩, ⟨0x37, 0x2A, 0x2A, 0⟩,
   ⟨0x38, 0x00, 0x00, 0⟩, ⟨0x39, 0x20, 0x20, 0⟩, ⟨0x3A, 0x00, 0x00, 0⟩, ⟨0x3B, 0x00, 0x00, 0⟩,
   ⟨0x3C, 0x00, 0x00, 0⟩, ⟨0x3D, 0x00, 0x00, 0⟩, ⟨0x3E, 0x00, 0x00, 0⟩, ⟨0x3F, 0x00, 0x00, 0⟩]

/-- R131, positions 0x40 to 0x4F. -/
def fill4 : Rom :=
  [⟨0x40, 0x00, 0x00, 0⟩, ⟨0x41, 0x00, 0x00, 0⟩, ⟨0x42, 0x00, 0x00, 0⟩, ⟨0x43, 0x00, 0x00, 0⟩,
   ⟨0x44, 0x00, 0x00, 0⟩, ⟨0x45, 0x00, 0x00, 0⟩, ⟨0x46, 0x00, 0x00, 0⟩, ⟨0x47, 0x37, 0x37, 0⟩,
   ⟨0x48, 0x38, 0x38, 0⟩, ⟨0x49, 0x39, 0x39, 0⟩, ⟨0x4A, 0x2D, 0x2D, 0⟩, ⟨0x4B, 0x34, 0x34, 0⟩,
   ⟨0x4C, 0x35, 0x35, 0⟩, ⟨0x4D, 0x36, 0x36, 0⟩, ⟨0x4E, 0x2B, 0x2B, 0⟩, ⟨0x4F, 0x31, 0x31, 0⟩]

/-- R131, positions 0x50 to 0x5D. -/
def fill5 : Rom :=
  [⟨0x50, 0x32, 0x32, 0⟩, ⟨0x51, 0x33, 0x33, 0⟩, ⟨0x52, 0x30, 0x30, 0⟩, ⟨0x53, 0x2E, 0x2E, 0⟩,
   ⟨0x54, 0x00, 0x00, 0⟩, ⟨0x00, 0x00, 0x00, 0⟩, ⟨0x00, 0x00, 0x00, 0⟩, ⟨0x57, 0x00, 0x00, 0⟩,
   ⟨0x58, 0x00, 0x00, 0⟩, ⟨0x00, 0x00, 0x00, 0⟩, ⟨0x00, 0x00, 0x00, 0⟩, ⟨0x00, 0x00, 0x00, 0⟩,
   ⟨0x00, 0x00, 0x00, 0⟩, ⟨0x00, 0x00, 0x00, 0⟩]

/-- The reference fill, the ROM this hardware takes (R131). -/
def referenceFill : Rom := fill0 ++ fill1 ++ fill2 ++ fill3 ++ fill4 ++ fill5

end Sys2Proof.Machine
end

