-- ==== Sys2Proof/Machine/State.lean ====
section
/-!
DEFINITION. The state of the block, exactly the elements of 10_state.md R20, and beside it the model's own
record of the block's interface: the delivered transactions and the results returned. Reset is power-on
(70_reset_and_hazards.md R230).
-/
namespace Sys2Proof.Machine

/-- `LIFE` (R29). -/
inductive Life where
  /-- UNINIT = 0 -/
  | uninit
  /-- READY = 1 -/
  | ready
  deriving DecidableEq, Repr

/-- The modifier register MOD (R23). Its 4-bit layout is the view `ModReg.bits` of Machine/Flags.lean. -/
structure ModReg where
  /-- bit 0, a shift key is held -/
  shift : Bool
  /-- bit 1, caps lock is on -/
  caps : Bool
  /-- bit 2, num lock is on -/
  num : Bool
  /-- bit 3, the last DECODE byte was the prefix 0xE0 -/
  ext : Bool
  deriving DecidableEq, Repr

/-- A byte storage as a sparse list: the slots written since power-on, addresses strictly rising. An unlisted
slot reads as a free value (U3). DESIGN CHOICE, safe: log entry 3. -/
abbrev Memory := List Host.Cell

/-- The FIFO (R20, R30). That the indices stay inside the capacity is the invariant R31, `Fifo.inRange` of
Safety.lean. DESIGN CHOICE, safe: log entry 13. -/
structure Fifo where
  /-- the index the next successful push writes -/
  head : Nat
  /-- the index the next successful pop reads -/
  tail : Nat
  /-- the number of bytes queued -/
  count : Nat
  /-- `STORE` -/
  store : Memory
  deriving DecidableEq, Repr

/-- The agents that issue transactions (00_scope.md R18). -/
inductive Agent where
  /-- the keyboard interrupt context -/
  | producer
  /-- one of any number of consumers -/
  | consumer (k : Nat)
  /-- the bring-up agent -/
  | boot
  deriving DecidableEq, Repr

/-- One transaction on the block's interface: its word (30_encoding.md R70) and who issued it. -/
structure Delivery where
  /-- who issued it; the block never looks (60_exceptions.md R208) -/
  agent : Agent
  /-- the transaction word -/
  word : TWord
  deriving DecidableEq, Repr

/-- One GETCHAR result, `some v` or `none` (R14, R75), and the agent that got it. -/
structure Response where
  /-- who called GETCHAR -/
  agent : Agent
  /-- the result -/
  value : Option Byte
  deriving DecidableEq, Repr

/-- The state: the parameters of the machine, the block's own elements (R20), and the model's record of its interface
(DESIGN CHOICE, safe: log entries 22, 4 and 6). -/
structure State where
  /-- the parameters this machine was built with (R9), which no transaction writes -/
  params : Config.Params
  /-- MOD -/
  mod : ModReg
  /-- the FIFO pointers and `STORE` -/
  fifo : Fifo
  /-- `ROM`, which no transaction writes (R133) -/
  rom : Rom
  /-- `LIFE` -/
  life : Life
  /-- the transactions still to be performed, in schedule order (20_memory.md R56) -/
  schedule : List Delivery
  /-- the agent of the transaction being performed -/
  caller : Agent
  /-- the GETCHAR results returned so far, in schedule order -/
  results : List Response
  deriving DecidableEq, Repr

/-- The block raises no exception and a transaction has no fault outcome (R13(c), R200). -/
inductive Fault where
  deriving DecidableEq, Repr

/-- The uses the model gives no meaning (R13(b)): the transaction does not happen and the run ends. DEDUCED, safe:
log entry 8. -/
inductive Refusal where
  /-- raised by an arm of `exec` that has no meaning yet; safe -/
  | notModelled (mnemonic : String)
  /-- raised by every DECODE while `LIFE` = UNINIT (R182, U2); safe -/
  | decodeBeforeInit
  /-- raised by GETCHAR while `LIFE` = UNINIT (R182, U2); safe -/
  | getcharBeforeInit
  /-- raised by INIT while `LIFE` = READY (R184, U1); safe -/
  | repeatedInit
  /-- raised by a step whose word spells no transaction (R72, R73, U6); safe -/
  | noTransaction (why : Reject)
  /-- raised by a make byte that reaches LOOKUP while the ROM is not one of this block (U13); safe. DESIGN CHOICE,
  log entry 12 -/
  | illFormedRom
  deriving DecidableEq, Repr

/-- The outcome of a transaction (R13). -/
abbrev Outcome := Host.Outcome State Fault Refusal

/-- The machine with these parameters and this ROM at power-on (R9, R230): `LIFE` = UNINIT, the ROM filled, no
transaction delivered. MOD and the FIFO pointers are unspecified there; the values are the model's choice: DESIGN CHOICE,
unsafe, log entries 1 and 2. -/
def State.powerOn (P : Config.Params) (rom : Rom) : State where
  params := P
  mod := ⟨false, false, false, false⟩
  fifo := ⟨0, 0, 0, []⟩
  rom := rom
  life := .uninit
  schedule := []
  caller := .boot
  results := []

/-- This hardware at power-on: the parameter values of R9, the reference fill of R131 (DEDUCED, log entry 9). That reset
is power-on: DESIGN CHOICE, safe, log entry 10. -/
def State.reset : State := State.powerOn Config.hw referenceFill

end Sys2Proof.Machine
end

