-- ==== Sys2Proof/Machine/Flags.lean ====
section
/-!
DEFINITION. The modifier register: its 4-bit layout (10_state.md R23), the effective shift of a KEY make
(42_decoder.md R160), and the letter classifier it reads (41_scancode_rom.md R128).
-/
namespace Sys2Proof.Machine

/-- MOD as its 4 bits, `ext num caps shift` from bit 3 down (R23). -/
def ModReg.bits (m : ModReg) : BitVec 4 :=
  BitVec.ofBool m.ext ++ (BitVec.ofBool m.num ++ (BitVec.ofBool m.caps ++ BitVec.ofBool m.shift))

/-- The register with these 4 bits (R23). -/
def ModReg.ofBits (v : BitVec 4) : ModReg := ⟨v.getLsbD 0, v.getLsbD 1, v.getLsbD 2, v.getLsbD 3⟩

/-- `LIFE` as its bit (R20). -/
def Life.bit : Life → BitVec 1
  | .uninit => 0
  | .ready => 1

/-- `isLetterKey` (R128): the code lies in one of the three letter ranges. -/
def isLetterKey (code : Code) (P : Config.Params := Config.hw) : Bool :=
  P.letterRanges.any fun r => r.1 ≤ code && code ≤ r.2

/-- `eff = MOD.shift XOR (MOD.caps AND isLetterKey(baseCode))` (R150 step 7). -/
def effectiveShift (P : Config.Params) (m : ModReg) (code : Code) : Bool := m.shift ^^ (m.caps && isLetterKey code P)

end Sys2Proof.Machine
end

