-- ==== Sys2Proof/Machine/Operands.lean ====
section
/-!
DEFINITION. The values a transaction computes: the character a KEY make selects (42_decoder.md R160 to
R162), and the wire form of a GETCHAR result (30_encoding.md R75, R76).
-/
namespace Sys2Proof.Machine

/-- `ch`: the shifted character when the effective shift is 1, else the unshifted one (R150 step 7). -/
def selectChar (e : ScancodeEntry) (eff : Bool) : Byte := if eff then e.shifted else e.unshifted

/-- Only a character other than 0x00 is pushed (R150 step 8). -/
def printable (ch : Byte) : Option Byte := if ch = 0 then none else some ch

/-- The byte a make of this base code hands to PUSH, if any: steps 6 to 8 of R150. -/
def emission (P : Config.Params) (rom : Rom) (m : ModReg) (code : Code) : Option Byte :=
  match lookup rom code with
  | none => none
  | some e => printable (selectChar e (effectiveShift P m code))

/-- The wires `{valid, data}` of the `n`-th result: for `none` the data is a free value (R76, U4). -/
def resultWire (n : Nat) : Option Byte → BitVec 9
  | some v => 1#1 ++ v
  | none => 0#1 ++ Config.freeWireData n

end Sys2Proof.Machine
end

