-- ==== Sys2Proof/Machine/Ops.lean ====
section
/-!
DEFINITION. The shared operations: the byte storage, PUSH and POP (40_ring_buffer.md), the writes to MOD,
bring-up, and the taking of the next delivered transaction. The block takes no exception and saves
nothing on one (60_exceptions.md R200, R205), so there is no exception entry here.
-/
namespace Sys2Proof.Machine

/-! ## Byte storage (20_memory.md R50, R52) -/

/-- The canonical form: addresses strictly rising. -/
abbrev Memory.wf (m : Memory) : Prop := m.Pairwise fun x y => x.1 < y.1

/-- The byte written at an address, if one was. -/
def Memory.written? : Memory → Nat → Option Byte
  | [], _ => none
  | (b, v) :: m, a => if a = b then some v else Memory.written? m a

/-- `MemRead(STORE, a, 1)` (R12): the byte last written, or the slot's free power-on byte (U3). -/
def Memory.read (m : Memory) (a : Nat) : Byte := (Memory.written? m a).getD (Config.storePowerOn a)

/-- `MemWrite(STORE, a, 1, v)` (R12). -/
def Memory.write : Memory → Nat → Byte → Memory
  | [], a, v => [(a, v)]
  | (b, u) :: m, a, v =>
    if a < b then (a, v) :: (b, u) :: m
    else if a = b then (a, v) :: m
    else (b, u) :: Memory.write m a v

/-! ## The FIFO (40_ring_buffer.md)

Every operation takes the capacity, the parameter of 00_scope.md R9. -/

/-- `next(i) = (i + 1) mod CAPACITY` (R100). -/
def nextIndex (cap i : Nat) : Nat := (i + 1) % cap

/-- PUSH (R101): the result bit and the FIFO after it. A full FIFO rejects and nothing is written. -/
def Fifo.push (f : Fifo) (cap : Nat) (c : Byte) : Bool × Fifo :=
  if f.count = cap then (false, f)
  else
    (true,
      { f with
        store := Memory.write f.store f.head c
        head := nextIndex cap f.head
        count := f.count + 1 })

/-- Where a PUSH stores its byte: `head`, unless the FIFO is full (R101). -/
def Fifo.pushSlot (f : Fifo) (cap : Nat) : Option Nat := if f.count = cap then none else some f.head

/-- POP (R103): the oldest byte and the FIFO without it, or `none` and the same FIFO. -/
def Fifo.pop (f : Fifo) (cap : Nat) : Option Byte × Fifo :=
  if f.count = 0 then (none, f)
  else (some (Memory.read f.store f.tail), { f with tail := nextIndex cap f.tail, count := f.count - 1 })

/-- The FIFO pointers after INIT (R35, R181). `STORE` is left as it is. DEDUCED: log entry 15. -/
def Fifo.created (f : Fifo) : Fifo := { f with head := 0, tail := 0, count := 0 }

/-- The `k`-th queued byte's index, `(tail + k) mod CAPACITY` (10_state.md R32). -/
def Fifo.slot (f : Fifo) (cap k : Nat) : Nat := (f.tail + k) % cap

/-- The abstract content `Q`, oldest first (R32). -/
def Fifo.contents (f : Fifo) (cap : Nat) : List Byte :=
  (List.range f.count).map fun k => Memory.read f.store (f.slot cap k)

/-- `head` as the bits of R30: the fewest that hold its largest legal value. -/
def Fifo.headBits (f : Fifo) (cap : Nat) : BitVec (Config.indexWidth (cap - 1)) := BitVec.ofNat _ f.head

/-- `tail` as bits (R30). -/
def Fifo.tailBits (f : Fifo) (cap : Nat) : BitVec (Config.indexWidth (cap - 1)) := BitVec.ofNat _ f.tail

/-- `count` as bits (R30). -/
def Fifo.countBits (f : Fifo) (cap : Nat) : BitVec (Config.indexWidth cap) := BitVec.ofNat _ f.count

/-! ## Writes to the state -/

/-- `MOD.ext <- v`. -/
def State.setExt (s : State) (v : Bool) : State := { s with mod := { s.mod with ext := v } }

/-- `MOD.shift <- v`. -/
def State.setShift (s : State) (v : Bool) : State := { s with mod := { s.mod with shift := v } }

/-- `MOD.caps <- v`. -/
def State.setCaps (s : State) (v : Bool) : State := { s with mod := { s.mod with caps := v } }

/-- `MOD.num <- v`. -/
def State.setNum (s : State) (v : Bool) : State := { s with mod := { s.mod with num := v } }

/-- The byte a make of this base code hands to PUSH here, with this machine's parameters, ROM and MOD. -/
def State.emitted (s : State) (code : Code) : Option Byte := emission s.params s.rom s.mod code

/-- PUSH of the character, if there is one; the result bit is discarded (R150 step 8, R162). -/
def State.emit (s : State) (ch : Option Byte) : State :=
  match ch with
  | none => s
  | some c => { s with fifo := (s.fifo.push s.params.capacity c).2 }

/-- A GETCHAR result goes to the caller. -/
def State.respond (s : State) (v : Option Byte) : State := { s with results := s.results ++ [⟨s.caller, v⟩] }

/-- What INIT writes (R181). -/
def State.bringUp (s : State) : State :=
  { s with mod := ⟨false, false, false, false⟩, fifo := s.fifo.created, life := .ready }

/-! ## Shared shapes of a transaction -/

/-- Before INIT the transaction is refused (43_driver_api.md R182). -/
def whenReady (refusal : Refusal) (s : State) (after : Outcome) : Outcome :=
  match s.life with
  | .ready => after
  | .uninit => .refused refusal

/-- A shift key's byte (R150 step 3): `MOD.shift <- not isRelease; MOD.ext <- 0`. -/
def shiftKey (release : Bool) (s : State) : Outcome :=
  whenReady .decodeBeforeInit s (.next ((s.setShift (!release)).setExt false))

/-- A make byte that reaches LOOKUP (R150 steps 6 to 9). An ill-formed ROM is refused (U13). -/
def makeKey (code : Code) (s : State) : Outcome :=
  whenReady .decodeBeforeInit s
    (if Rom.wf s.rom s.params then .next ((s.emit (s.emitted code)).setExt false)
     else .refused .illFormedRom)

/-- Where a make byte stores: the slot of its PUSH, if it emits and the FIFO is not full. -/
def makeSlot (code : Code) (s : State) : Option Nat :=
  match s.emitted code with
  | none => none
  | some _ => s.fifo.pushSlot s.params.capacity

/-! ## Taking a transaction from the interface (R22, R56) -/

/-- The next delivered transaction, and the state that performs it. -/
def takeNext (s : State) : Option (TWord × State) :=
  match s.schedule with
  | [] => none
  | d :: rest => some (d.word, { s with schedule := rest, caller := d.agent })

/-- With no transaction delivered nothing happens. DESIGN CHOICE, safe: log entry 4. -/
def idle (s : State) : Outcome := .next s

/-- Which agent a placed word's transaction is issued under. That DECODE is the producer's and INIT the boot agent's is
R18; that a GETCHAR is consumer 0's, of the any number of consumers R18 and D25 allow, is the model's choice: DESIGN
CHOICE, safe, log entry 23. -/
def issuer : Instr → Agent
  | .init => .boot
  | .getchar => .consumer 0
  | .extPrefix | .shiftLMk | .shiftRMk | .shiftLBrk | .shiftRBrk => .producer
  | .capsBrk | .numBrk | .capsMk | .numMk | .keyBrk _ | .keyMk _ => .producer

/-- What the environment does to have a word performed next (DESIGN CHOICE, safe: log entries 4, 5): DECODE and GETCHAR
reach the block only after INIT (R182), so an UNINIT block is brought up first. A word that spells no transaction has no
agent in R18; it is placed under the boot agent: DESIGN CHOICE, safe, log entry 23. -/
def deliver (w : TWord) (s : State) : State :=
  match decode w s.params with
  | .reject _ => { s with schedule := ⟨.boot, w⟩ :: s.schedule }
  | .transaction i =>
    let s := if i = .init ∨ s.life = .ready then s else s.bringUp
    { s with schedule := ⟨issuer i, w⟩ :: s.schedule }

/-- A table word as a transaction word. A value of more than 10 bits spells none, so it goes as the reserved
word 0x3FF (DESIGN CHOICE, safe: log entry 16). -/
def tableWord (nbits w : Nat) : TWord :=
  if tableValue nbits w < 1024 then BitVec.ofNat 10 (tableValue nbits w) else 0x3FF

end Sys2Proof.Machine
end

