-- ==== Sys2Proof/Machine/Decoder.lean ====
section
/-!
DEFINITION. The meanings of the eleven DECODE rows, one per class and key (42_decoder.md R152 to R162).
Each is refused before INIT (R182).
-/
namespace Sys2Proof.Machine

/-- PREFIX (R152): `MOD.ext <- 1`. -/
def execExtPrefix (s : State) : Outcome := whenReady .decodeBeforeInit s (.next (s.setExt true))

/-- SHIFT_MK of the left key (R154). -/
def execShiftLMk (s : State) : Outcome := shiftKey false s

/-- SHIFT_MK of the right key (R154): the same one bit. -/
def execShiftRMk (s : State) : Outcome := shiftKey false s

/-- SHIFT_BRK of the left key (R154). -/
def execShiftLBrk (s : State) : Outcome := shiftKey true s

/-- SHIFT_BRK of the right key (R154). -/
def execShiftRBrk (s : State) : Outcome := shiftKey true s

/-- CAPS_BRK (R156): `MOD.caps <- not MOD.caps; MOD.ext <- 0`. -/
def execCapsBrk (s : State) : Outcome :=
  whenReady .decodeBeforeInit s (.next ((s.setCaps (!s.mod.caps)).setExt false))

/-- NUM_BRK (R157): `MOD.num <- not MOD.num; MOD.ext <- 0`. -/
def execNumBrk (s : State) : Outcome :=
  whenReady .decodeBeforeInit s (.next ((s.setNum (!s.mod.num)).setExt false))

/-- CAPS_MK (R155): fails steps 3 to 5 and reaches LOOKUP. -/
def execCapsMk (s : State) : Outcome := makeKey s.params.caps s

/-- NUM_MK (R158): as CAPS_MK. -/
def execNumMk (s : State) : Outcome := makeKey s.params.num s

/-- KEY_BRK (R159): whatever LOOKUP of the code returns, `MOD.ext <- 0`. -/
def execKeyBrk (_code : Code) (s : State) : Outcome :=
  whenReady .decodeBeforeInit s (.next (s.setExt false))

/-- KEY_MK (R160 to R162). -/
def execKeyMk (code : Code) (s : State) : Outcome := makeKey code s

end Sys2Proof.Machine
end

