-- ==== Sys2Proof/Machine/Driver.lean ====
section
/-!
DEFINITION. The driver transactions INIT and GETCHAR (43_driver_api.md R181 to R187).
-/
namespace Sys2Proof.Machine

/-- GETCHAR (R185): POP, its result returned to the caller. -/
def execGetchar (s : State) : Outcome :=
  whenReady .getcharBeforeInit s (.next ({ s with fifo := (s.fifo.pop s.params.capacity).2 }.respond (s.fifo.pop s.params.capacity).1))

/-- INIT (R181); a second one is refused (R184). The registration of the handler is outside the block (R183). -/
def execInit (s : State) : Outcome :=
  match s.life with
  | .ready => .refused .repeatedInit
  | .uninit => .next s.bringUp

end Sys2Proof.Machine
end

