-- ==== Sys2Proof/Machine/Dispatch.lean ====
section
/-! DEFINITION. One arm per transaction: the meaning of each row of the opcode table. -/
namespace Sys2Proof.Machine

def exec (i : Instr) (s : State) : Host.Outcome State Fault Refusal :=
  match i with
  | .extPrefix => Sys2Proof.Machine.execExtPrefix s
  | .shiftLMk => Sys2Proof.Machine.execShiftLMk s
  | .shiftRMk => Sys2Proof.Machine.execShiftRMk s
  | .shiftLBrk => Sys2Proof.Machine.execShiftLBrk s
  | .shiftRBrk => Sys2Proof.Machine.execShiftRBrk s
  | .capsBrk => Sys2Proof.Machine.execCapsBrk s
  | .numBrk => Sys2Proof.Machine.execNumBrk s
  | .capsMk => Sys2Proof.Machine.execCapsMk s
  | .numMk => Sys2Proof.Machine.execNumMk s
  | .keyBrk code => Sys2Proof.Machine.execKeyBrk code s
  | .keyMk code => Sys2Proof.Machine.execKeyMk code s
  | .getchar => Sys2Proof.Machine.execGetchar s
  | .init => Sys2Proof.Machine.execInit s

end Sys2Proof.Machine
end

