-- ==== Sys2Proof/Machine/Step.lean ====
section
/-!
DEFINITION. One step: the next delivered transaction is decoded and performed whole (20_memory.md R56), with the
parameters of the machine at hand (00_scope.md R9).
-/
namespace Sys2Proof.Machine

/-- One step of a run. A word that spells no transaction is refused (R72, R73). -/
def step (s : State) : Host.Outcome State Fault Refusal :=
  match takeNext s with
  | none => idle s
  | some (w, s') =>
    match decode w s.params with
    | .reject why => .refused (.noTransaction why)
    | .transaction i => exec i s'

/-- The state whose next step performs this table word (DESIGN CHOICE, safe: log entries 4, 5 and 16). -/
def State.withFetchWord (s : State) (nbits w : Nat) : State := deliver (tableWord nbits w) s

end Sys2Proof.Machine
end

