-- ==== Sys2Proof/Machine/Pseudocode.lean ====
section
/-!
DEFINITION. DECODE as the one pseudocode of 42_decoder.md R150, steps 1 to 9, over the raw byte. `exec`
implements it class by class (42_decoder.md, its opening paragraph); this is the text they are held to.
-/
namespace Sys2Proof.Machine

/-- `DECODE(b)` (R150), the literals 0xE0, 0x80 and 0x7F of its text being the machine's PREFIX, RELEASE_MASK and
BASE_MASK (00_scope.md R9). -/
def decodeByte (b : Byte) (s : State) : Outcome :=
  let P := s.params
  if s.life ≠ .ready then .refused .decodeBeforeInit
  else if b = P.extByte then .next { s with mod := { s.mod with ext := true } }
  else
    let release := (b &&& P.releaseMask) != 0
    let base : Code := (b &&& P.baseMask).setWidth 7
    if isShiftKey base P then .next { s with mod := { s.mod with shift := !release, ext := false } }
    else if isCapsLockKey base P && release then .next { s with mod := { s.mod with caps := !s.mod.caps, ext := false } }
    else if isNumLockKey base P && release then .next { s with mod := { s.mod with num := !s.mod.num, ext := false } }
    else
      match lookup s.rom base with
      | none => .next { s with mod := { s.mod with ext := false } }
      | some entry =>
        if release then .next { s with mod := { s.mod with ext := false } }
        else
          let eff := s.mod.shift ^^ (s.mod.caps && isLetterKey base P)
          let ch := if eff then entry.shifted else entry.unshifted
          if ch ≠ 0 then
            .next { s with fifo := (s.fifo.push P.capacity ch).2, mod := { s.mod with ext := false } }
          else .next { s with mod := { s.mod with ext := false } }

end Sys2Proof.Machine
end

