-- ==== Sys2Proof/Safety.lean ====
section
/-!
DEFINITION. The terms the claims use: the invariant of a run, the record of accepted characters, and small
views of outcomes and of the FIFO over sequences of operations.
-/
namespace Sys2Proof.Machine

/-! ## The invariant -/

/-- The pointers lie in their legal ranges (10_state.md R31). -/
abbrev Fifo.inRange (f : Fifo) (cap : Nat) : Prop := f.head < cap ∧ f.tail < cap ∧ f.count ≤ cap

/-- The pointers are in range and agree (R31), and every queued slot has been written (`Q` of R32 reads no free value). -/
abbrev Fifo.linked (f : Fifo) (cap : Nat) : Prop :=
  f.inRange cap ∧ f.head = (f.tail + f.count) % cap ∧
    ∀ k < f.count, (Memory.written? f.store (f.slot cap k)).isSome = true

/-- `STORE` is in canonical form and holds nothing outside its slots (20_memory.md R50, R52). -/
abbrev Fifo.storeWf (f : Fifo) (cap : Nat) : Prop := Memory.wf f.store ∧ ∀ c ∈ f.store, c.1 < cap

/-- Room left in the FIFO. -/
def Fifo.room (f : Fifo) (cap : Nat) : Nat := cap - f.count

/-- PUSH of each byte in turn; the result bits are dropped, as DECODE drops them. -/
def Fifo.pushAll (f : Fifo) (cap : Nat) (cs : List Byte) : Fifo := cs.foldl (fun g c => (g.push cap c).2) f

/-- The results of PUSH of each byte in turn. -/
def Fifo.pushResults (f : Fifo) (cap : Nat) : List Byte → List Bool
  | [] => []
  | c :: cs => (f.push cap c).1 :: Fifo.pushResults (f.push cap c).2 cap cs

/-- The results of `n` POPs. -/
def Fifo.popResults (f : Fifo) (cap : Nat) : Nat → List (Option Byte)
  | 0 => []
  | n + 1 => (f.pop cap).1 :: Fifo.popResults (f.pop cap).2 cap n

/-- What holds in every state of a run from power-on: the capacity is at least 1 (00_scope.md R9), the ROM is one of this
block (R129), `STORE` is canonical, and after INIT the pointers are in range and agree (R31: "in every reachable state
with `LIFE` = READY"). -/
abbrev State.Inv (s : State) : Prop :=
  1 ≤ s.params.capacity ∧ Rom.wf s.rom s.params = true ∧ s.fifo.storeWf s.params.capacity ∧
    (s.life = .ready → s.fifo.linked s.params.capacity)

/-! ## The record of characters (20_memory.md R61) -/

/-- The characters the consumers have received, in schedule order. -/
def State.returned (s : State) : List Byte := s.results.filterMap (·.value)

/-- Every character the FIFO has accepted that was not there at the start: those returned, then those queued. -/
def State.accepted (s : State) : List Byte := s.returned ++ s.fifo.contents s.params.capacity

/-- What a transaction makes the FIFO accept: the emitted character of a make byte, unless the FIFO is full. -/
def acceptedBy (i : Instr) (s : State) : List Byte :=
  if s.fifo.count = s.params.capacity then []
  else
    match i with
    | .keyMk code => (s.emitted code).toList
    | .extPrefix | .shiftLMk | .shiftRMk | .shiftLBrk | .shiftRBrk => []
    | .capsBrk | .numBrk | .capsMk | .numMk | .keyBrk _ | .getchar | .init => []

/-! ## Outcomes and runs -/

/-- The outcome with its next state changed. -/
def mapNext (g : State → State) : Outcome → Outcome
  | .next t => .next (g t)
  | .fault r => .fault r
  | .refused r => .refused r

/-- The outcome of performing the transactions in order, ending at the first refusal. -/
def execAll : List Instr → State → Outcome
  | [], s => .next s
  | i :: is, s =>
    match exec i s with
    | .next t => execAll is t
    | .fault r => .fault r
    | .refused r => .refused r

/-- `n` steps from `s` end in `t`. -/
def runsTo (n : Nat) (s t : State) : Prop := Host.Core.run Sys2Proof.core n s = .next t

/-- A word that is admitted after INIT: a DECODE or a GETCHAR (43_driver_api.md R182, R184). -/
def servable (w : TWord) : Prop := opOf w = 0b00 ∨ w = 0x100

/-- The scheduled words that are DECODEs (30_encoding.md R71). -/
def decodesOf (ds : List Delivery) : List TWord := (ds.map (·.word)).filter fun w => opOf w == 0b00

end Sys2Proof.Machine
end

