-- ==== Sys2Proof/Certificates/Slice0/Obligations.lean ====
section
/-!
DEFINITION. The statements for the provers. Each cites in its docstring the rule of spec/ it formalises.
-/

open Sys2Proof Sys2Proof.Machine

/-! ## Steps and words -/

/-- 20_memory.md R56: a step performs the next delivered transaction whole, from the state the step before left.
That a word which spells no transaction is refused is R72 and R73; that nothing happens while nothing is delivered
is the model's choice, log entry 4. -/
def Obligations.StepPerformsTheDeliveredTransaction : Prop :=
  (∀ (s : State) (d : Delivery) (rest : List Delivery) (i : Instr),
      s.schedule = d :: rest → decode d.word s.params = .transaction i →
      step s = exec i { s with schedule := rest, caller := d.agent }) ∧
  (∀ (s : State) (d : Delivery) (rest : List Delivery) (why : Reject),
      s.schedule = d :: rest → decode d.word s.params = .reject why → step s = .refused (.noTransaction why)) ∧
  ∀ s : State, s.schedule = [] → step s = .next s

/-- The model's own loading of one word, log entries 4, 5 and 23: with this machine's key positions, the next step
performs exactly the encoded transaction, under the agent the model picks; an UNINIT block has been brought up first
unless the transaction is INIT. -/
def Obligations.FetchWordIsPerformedNext : Prop :=
  ∀ (i : Instr) (s : State), s.params.wf = true → i.wf s.params = true →
    (i = .init ∨ s.life = .ready →
      step (s.withFetchWord 16 (encode i s.params).toNat) = exec i { s with caller := issuer i }) ∧
    (i ≠ .init ∧ s.life = .uninit →
      step (s.withFetchWord 16 (encode i s.params).toNat) = exec i { s.bringUp with caller := issuer i })

/-- Words written out from the fields of 30_encoding.md R70 and the bytes of R78, one for each row of the table. -/
def Obligations.WrittenOutWordsDecode : Prop :=
  decode 0b00_11100000 = .transaction .extPrefix ∧
  decode 0b00_00101010 = .transaction .shiftLMk ∧
  decode 0b00_00110110 = .transaction .shiftRMk ∧
  decode 0b00_10101010 = .transaction .shiftLBrk ∧
  decode 0b00_10110110 = .transaction .shiftRBrk ∧
  decode 0b00_10111010 = .transaction .capsBrk ∧
  decode 0b00_11000101 = .transaction .numBrk ∧
  decode 0b00_00111010 = .transaction .capsMk ∧
  decode 0b00_01000101 = .transaction .numMk ∧
  decode 0b00_10011110 = .transaction (.keyBrk 0x1E) ∧
  decode 0b00_00011110 = .transaction (.keyMk 0x1E) ∧
  decode 0b01_00000000 = .transaction .getchar ∧
  decode 0b10_00000000 = .transaction .init

/-- 30_encoding.md R70 to R78: for any prefix, masks and four distinct key positions whose bytes the masks read back and the
prefix does not shadow, decoding an encoded well-formed transaction gives it back, with its base code at every value the
encoding admits. -/
def Obligations.EncodedTransactionDecodesBack : Prop :=
  ∀ (P : Config.Params) (i : Instr), P.wf = true → i.wf P = true → decode (encode i P) P = .transaction i

/-- R74: each word spells at most one transaction, a well-formed one, and, with the masks of R77, no other word spells
it, whatever the prefix and the positions. -/
def Obligations.DecodedTransactionEncodesBack : Prop :=
  ∀ (P : Config.Params) (w : TWord) (i : Instr), P.releaseMask = 0x80 → P.baseMask = 0x7F →
    decode w P = .transaction i → i.wf P = true ∧ encode i P = w

/-- R72 and R73: `op` 0b01 and 0b10 with data 0x00 are GETCHAR and INIT, with any other data they are refused, and
`op` 0b11 is refused whatever its data; nothing else is refused as a word. -/
def Obligations.RefusedWordsAreTheUnassignedOnes : Prop :=
  (∀ (P : Config.Params) (w : TWord),
      (decode w P = .reject .reservedOp ↔ opOf w = 0b11) ∧
      (decode w P = .reject .dataNotZero ↔ (opOf w = 0b01 ∨ opOf w = 0b10) ∧ dataOf w ≠ 0) ∧
      (decode w P = .transaction .getchar ↔ opOf w = 0b01 ∧ dataOf w = 0) ∧
      (decode w P = .transaction .init ↔ opOf w = 0b10 ∧ dataOf w = 0)) ∧
  ∀ (s : State) (d : Delivery) (rest : List Delivery), s.schedule = d :: rest →
    (opOf d.word = 0b11 → step s = .refused (.noTransaction .reservedOp)) ∧
    ((opOf d.word = 0b01 ∨ opOf d.word = 0b10) ∧ dataOf d.word ≠ 0 →
      step s = .refused (.noTransaction .dataNotZero))

/-- R71, R77 and R78: every byte is a legal DECODE, and its class is the first row of R78's table whose condition holds,
for any parameters; with the masks 0x80 and 0x7F the conditions read bit 7 and bits 6:0 of the byte; with the decided
positions (decision D8, log entry 11) the classes are the bytes of the table's fourth column. -/
def Obligations.EveryByteHasItsClass : Prop :=
  (∀ (P : Config.Params) (b : Byte),
    let rel := isRelease b P
    let code := baseCode b P
    let shiftPos := code = P.shiftL ∨ code = P.shiftR
    let table : List (Bool × ByteClass) :=
      [(decide (b = P.extByte), .extPrefix),
       (decide (rel = false ∧ shiftPos), .shiftMk), (decide (rel = true ∧ shiftPos), .shiftBrk),
       (decide (rel = true ∧ code = P.caps), .capsBrk), (decide (rel = true ∧ code = P.num), .numBrk),
       (decide (rel = false ∧ code = P.caps), .capsMk), (decide (rel = false ∧ code = P.num), .numMk),
       (rel, .keyBrk), (!rel, .keyMk)]
    decode (wordOf 0b00 b) P = .transaction ((byteClass b P).row code P) ∧
    ((byteClass b P).row code P).isDecode = true ∧
    (table.find? (·.1)).map (·.2) = some (byteClass b P) ∧
    (P.releaseMask = 0x80 → rel = b.getLsbD 7) ∧ (P.baseMask = 0x7F → code = b.extractLsb' 0 7)) ∧
  ∀ b : Byte,
    (byteClass b = .extPrefix ↔ b = 0xE0) ∧
    (byteClass b = .shiftMk ↔ b = 0x2A ∨ b = 0x36) ∧ (byteClass b = .shiftBrk ↔ b = 0xAA ∨ b = 0xB6) ∧
    (byteClass b = .capsBrk ↔ b = 0xBA) ∧ (byteClass b = .numBrk ↔ b = 0xC5) ∧
    (byteClass b = .capsMk ↔ b = 0x3A) ∧ (byteClass b = .numMk ↔ b = 0x45) ∧
    (byteClass b = .keyBrk ↔ 0x80 ≤ b.toNat ∧ b ∉ ([0xAA, 0xB6, 0xBA, 0xC5, 0xE0] : List Byte)) ∧
    (byteClass b = .keyMk ↔ b.toNat ≤ 0x7F ∧ b ∉ ([0x2A, 0x36, 0x3A, 0x45] : List Byte))

/-- R79: with the prefix 0xE0 and the masks 0x80 and 0x7F, 0xE0 would be the release of base code 0x60, is always PREFIX,
and nothing is lost: no other byte is a release of 0x60, and a make of 0x60 emits nothing, since the ROM does not reach
it. This hardware's parameters are such. -/
def Obligations.PrefixShadowsTheReleaseOf60 : Prop :=
  isRelease 0xE0 = true ∧ baseCode 0xE0 = 0x60 ∧
  (∀ P : Config.Params, P.extByte = 0xE0 → decode 0x0E0 P = .transaction .extPrefix) ∧
  (∀ b : Byte, isRelease b = true → baseCode b = 0x60 → b = 0xE0) ∧
  (∀ (P : Config.Params) (w : TWord), P.extByte = 0xE0 → P.releaseMask = 0x80 → P.baseMask = 0x7F →
    decode w P ≠ .transaction (.keyBrk 0x60)) ∧
  (∀ (P : Config.Params) (rom : Rom) (m : ModReg), Rom.wf rom P = true → P.romDepth ≤ 0x60 →
    emission P rom m 0x60 = none) ∧
  Config.hw.extByte = 0xE0 ∧ Config.hw.releaseMask = 0x80 ∧ Config.hw.baseMask = 0x7F ∧ Config.hw.romDepth ≤ 0x60

/-- R82: the words of each assembler line, operands in the low byte. -/
def Obligations.AssemblerLinesExpand : Prop :=
  (∀ b : Byte, (AsmLine.decode b).words = [b.setWidth 10]) ∧
  AsmLine.getchar.words = [0x100] ∧ AsmLine.init.words = [0x200] ∧
  (∀ code : Code, (AsmLine.tap code).words = [code.setWidth 10, code.setWidth 10 + 0x80]) ∧
  (∀ b : Byte, (AsmLine.ext b).words = [0x0E0, b.setWidth 10]) ∧
  AsmLine.shiftDown.words = [0x02A] ∧ AsmLine.shiftUp.words = [0x0AA]

/-! ## Power-on and INIT -/

/-- 70_reset_and_hazards.md R230 and 00_scope.md R9: at power-on LIFE is UNINIT and the ROM holds its fill, whatever the
parameters and the ROM; no transaction but INIT is admitted there; this hardware's reset has the parameter values of R9
and the reference fill. (MOD and the pointers are unspecified: nothing is said of them.) -/
def Obligations.PowerOnAdmitsOnlyInit : Prop :=
  (∀ (P : Config.Params) (rom : Rom),
    (State.powerOn P rom).life = .uninit ∧ (State.powerOn P rom).rom = rom ∧ (State.powerOn P rom).params = P ∧
    (∀ i : Instr, i ≠ .init → ∃ r, exec i (State.powerOn P rom) = .refused r) ∧
    ∃ t, exec .init (State.powerOn P rom) = .next t) ∧
  State.reset.life = .uninit ∧ State.reset.rom = referenceFill ∧
  State.reset.params =
    { capacity := 100, romDepth := 94, extByte := 0xE0, releaseMask := 0x80, baseMask := 0x7F, shiftL := 0x2A, shiftR := 0x36,
      caps := 0x3A, num := 0x45, letterRanges := [(0x10, 0x19), (0x1E, 0x26), (0x2C, 0x32)] } ∧
  (∀ i : Instr, i ≠ .init → ∃ r, exec i State.reset = .refused r) ∧
  ∃ t, exec .init State.reset = .next t

/-- 43_driver_api.md R182: before INIT every DECODE and GETCHAR is refused, each under its own name. -/
def Obligations.NothingElseIsAdmittedBeforeInit : Prop :=
  ∀ s : State, s.life = .uninit →
    (∀ i : Instr, i.isDecode = true → exec i s = .refused .decodeBeforeInit) ∧
    exec .getchar s = .refused .getcharBeforeInit

/-- R184: a second INIT is refused. -/
def Obligations.SecondInitIsRefused : Prop :=
  ∀ s : State, s.life = .ready → exec .init s = .refused .repeatedInit

/-- R181: INIT on an UNINIT block completes with MOD, head, tail and count 0 and LIFE READY; the ROM and the interface
record are unchanged; on a READY block it is refused. That STORE keeps its bytes is the model's reading of 10_state.md R33
and of R181's "except STORE and ROM" (DEDUCED, log entry 15): R35 leaves STORE unspecified after INIT. -/
def Obligations.InitBringsTheBlockUp : Prop :=
  ∀ s : State,
    (s.life = .ready → exec .init s = .refused .repeatedInit) ∧
    (s.life = .uninit → ∃ t, exec .init s = .next t ∧
      t.life = .ready ∧ t.mod.bits = 0 ∧
      t.fifo.head = 0 ∧ t.fifo.tail = 0 ∧ t.fifo.count = 0 ∧
      (∀ a, Memory.read t.fifo.store a = Memory.read s.fifo.store a) ∧ t.fifo.store = s.fifo.store ∧
      t.rom = s.rom ∧ t.params = s.params ∧ t.schedule = s.schedule ∧ t.caller = s.caller ∧ t.results = s.results)

/-! ## The byte classes of DECODE -/

/-- 42_decoder.md R152: PREFIX completes and sets `MOD.ext`; the rest of the state is unchanged. -/
def Obligations.PrefixSetsOnlyExt : Prop :=
  ∀ s : State, s.life = .ready →
    exec .extPrefix s = .next { s with mod := { s.mod with ext := true } }

/-- R154: either shift key's make sets the one shift bit and either break clears it; `MOD.ext` ends 0; the rest of the
state is unchanged. -/
def Obligations.ShiftKeysShareOneHeldBit : Prop :=
  ∀ s : State, s.life = .ready →
    exec .shiftLMk s = .next { s with mod := { s.mod with shift := true, ext := false } } ∧
    exec .shiftRMk s = .next { s with mod := { s.mod with shift := true, ext := false } } ∧
    exec .shiftLBrk s = .next { s with mod := { s.mod with shift := false, ext := false } } ∧
    exec .shiftRBrk s = .next { s with mod := { s.mod with shift := false, ext := false } }

/-- R156: the caps-lock release inverts `MOD.caps` and clears `MOD.ext`; the rest of the state is unchanged. -/
def Obligations.CapsReleaseToggles : Prop :=
  ∀ s : State, s.life = .ready →
    exec .capsBrk s = .next { s with mod := { s.mod with caps := !s.mod.caps, ext := false } }

/-- R157: the num-lock release inverts `MOD.num` and clears `MOD.ext`; the rest of the state is unchanged. -/
def Obligations.NumReleaseToggles : Prop :=
  ∀ s : State, s.life = .ready →
    exec .numBrk s = .next { s with mod := { s.mod with num := !s.mod.num, ext := false } }

/-- R159: a release of any other code clears `MOD.ext` and does nothing else, whatever the ROM holds. -/
def Obligations.OtherReleasesAreIgnored : Prop :=
  ∀ (s : State) (code : Code), s.life = .ready →
    exec (.keyBrk code) s = .next { s with mod := { s.mod with ext := false } }

/-- R155 and R158: with any ROM of this block a caps-lock or num-lock press clears `MOD.ext` and does nothing else. -/
def Obligations.LockPressesAreIgnored : Prop :=
  ∀ s : State, s.life = .ready → Rom.wf s.rom s.params = true →
    exec .capsMk s = .next { s with mod := { s.mod with ext := false } } ∧
    exec .numMk s = .next { s with mod := { s.mod with ext := false } }

/-- R161: a make of an unmapped code clears `MOD.ext` and does nothing else; with the reference fill the unmapped
codes are 0x00, 0x55, 0x56 and 0x59 to 0x7F. -/
def Obligations.UnmappedMakesAreIgnored : Prop :=
  (∀ (s : State) (code : Code), s.life = .ready → Rom.wf s.rom s.params = true → lookup s.rom code = none →
    exec (.keyMk code) s = .next { s with mod := { s.mod with ext := false } }) ∧
  ∀ code : Code, lookup referenceFill code = none ↔
    code = 0x00 ∨ code = 0x55 ∨ code = 0x56 ∨ 0x59 ≤ code.toNat

/-- R160 and R162: a make of an unmapped code only clears `MOD.ext`; one of a mapped code selects by
`shift XOR (caps AND letter)`, a letter being a code in one of the machine's letter ranges; character 0 pushes nothing; a
full FIFO drops the character; otherwise it is the one byte pushed, at `head`. MOD ends the same in each case, and the
rest of the state is unchanged. -/
def Obligations.KeyMakePushesItsCharacter : Prop :=
  (∀ (s : State) (code : Code), s.life = .ready → Rom.wf s.rom s.params = true →
    (∀ e, s.rom[code.toNat]? = some e → e.raw = 0) →
    exec (.keyMk code) s = .next { s with mod := { s.mod with ext := false } }) ∧
  ∀ (s : State) (code : Code) (e : ScancodeEntry),
    s.life = .ready → Rom.wf s.rom s.params = true → s.rom[code.toNat]? = some e → e.raw ≠ 0 →
    let letter := ∃ r ∈ s.params.letterRanges, r.1.toNat ≤ code.toNat ∧ code.toNat ≤ r.2.toNat
    let eff := s.mod.shift ^^ (s.mod.caps && decide letter)
    let ch := if eff then e.shifted else e.unshifted
    (ch = 0 ∨ s.fifo.count = s.params.capacity →
      exec (.keyMk code) s = .next { s with mod := { s.mod with ext := false } }) ∧
    (ch ≠ 0 → s.fifo.count ≠ s.params.capacity →
      ∃ t, exec (.keyMk code) s = .next t ∧
        t.mod = { s.mod with ext := false } ∧
        Memory.read t.fifo.store s.fifo.head = ch ∧
        (∀ a, a ≠ s.fifo.head → Memory.read t.fifo.store a = Memory.read s.fifo.store a) ∧
        t.fifo.head = (s.fifo.head + 1) % s.params.capacity ∧
        t.fifo.tail = s.fifo.tail ∧ t.fifo.count = s.fifo.count + 1 ∧
        t.rom = s.rom ∧ t.life = s.life ∧ t.params = s.params ∧ t.schedule = s.schedule ∧ t.caller = s.caller ∧
        t.results = s.results)

/-- The frame of every make that reaches LOOKUP: the bytes outside the slot it stores to read as before, and where it
stores nothing the whole FIFO is unchanged; of MOD only `ext` changes (R155, R158, R160 "State written"). -/
def Obligations.MakeFrame : Prop :=
  ∀ (s t : State) (i : Instr) (code : Code),
    (i = .keyMk code ∨ (i = .capsMk ∧ code = s.params.caps) ∨ (i = .numMk ∧ code = s.params.num)) →
    exec i s = .next t →
    (∀ a, makeSlot code s = some a → ∀ x, x ≠ a → Memory.read t.fifo.store x = Memory.read s.fifo.store x) ∧
    (makeSlot code s = none →
      t.fifo = s.fifo ∧ ∀ x, Memory.read t.fifo.store x = Memory.read s.fifo.store x) ∧
    t.mod.shift = s.mod.shift ∧ t.mod.caps = s.mod.caps ∧ t.mod.num = s.mod.num ∧
    t.fifo.tail = s.fifo.tail ∧ t.rom = s.rom ∧ t.life = s.life ∧ t.params = s.params ∧
    t.schedule = s.schedule ∧ t.caller = s.caller ∧ t.results = s.results

/-- 93_implementation_defined.md U13: a make byte that reaches LOOKUP is refused while the ROM is not one of this
block. That the refusal stands at these transactions is the model's choice, log entry 12. -/
def Obligations.IllFormedRomIsRefused : Prop :=
  ∀ s : State, s.life = .ready → Rom.wf s.rom s.params = false →
    (∀ code : Code, exec (.keyMk code) s = .refused .illFormedRom) ∧
    exec .capsMk s = .refused .illFormedRom ∧ exec .numMk s = .refused .illFormedRom

/-- R150: performing the class of a byte is the one pseudocode of the rule, for every byte, state and parameters. -/
def Obligations.ClassesImplementThePseudocode : Prop :=
  ∀ (s : State) (b : Byte), Rom.wf s.rom s.params = true → exec (decodeOf b s.params) s = decodeByte b s

/-- R151: after any DECODE, `MOD.ext` = 1 exactly when that DECODE's byte was the machine's prefix, which in this
hardware is 0xE0. -/
def Obligations.ExtRecordsThePrefix : Prop :=
  (∀ (s t : State) (b : Byte), exec (decodeOf b s.params) s = .next t → (t.mod.ext = true ↔ b = s.params.extByte)) ∧
  ∀ (s t : State) (b : Byte), s.params.extByte = 0xE0 → exec (decodeOf b s.params) s = .next t →
    (t.mod.ext = true ↔ b = 0xE0)

/-- R165: no break byte, one with the release bit (bit 7, the mask being 0x80), pushes a character under any MOD; it completes and leaves the FIFO as it was. -/
def Obligations.BreakBytesPushNothing : Prop :=
  ∀ (s : State) (b : Byte), s.life = .ready →
    (isRelease b s.params = true ∨ (s.params.releaseMask = 0x80 ∧ b.getLsbD 7 = true)) →
    ∃ t, exec (decodeOf b s.params) s = .next t ∧ t.fifo = s.fifo ∧ t.results = s.results

/-- R164 and R80: no step reads `MOD.ext`, so a byte after 0xE0 does what it does alone, and in both cases `MOD.ext`
ends the same. -/
def Obligations.PrefixDoesNotAlterTheNextByte : Prop :=
  ∀ (s : State) (i : Instr), i.isDecode = true →
    (∀ v : Bool, exec i { s with mod := { s.mod with ext := v } } = exec i s) ∧
    (s.life = .ready → execAll [.extPrefix, i] s = exec i s)

/-- 10_state.md R26: `MOD.num` is inverted by NUM_BRK and read by nothing: a run that differs in it alone goes on
differing in it alone. -/
def Obligations.NumLockInfluencesNothingElse : Prop :=
  ∀ (s : State) (i : Instr) (v : Bool),
    exec i (s.setNum v) =
      mapNext (fun t => t.setNum (match i with | .numBrk => !v | .init => false | _ => v)) (exec i s)

/-- 41_scancode_rom.md R130 with 42_decoder.md R160: with the decided positions and letter ranges (decisions D8 and D9, log
entry 11), any capacity, any ROM depth and any ROM of this block, `a` is shifted by shift xor caps and the digits 1 and 2 by shift
alone. -/
def Obligations.LetterAAndDigitsFollowTheirModifiers : Prop :=
  ∀ s : State, s.life = .ready →
    s.params = { Config.hw with capacity := s.params.capacity, romDepth := s.params.romDepth } →
    Rom.wf s.rom s.params = true → Rom.holdsFixedKeys s.rom = true →
    s.fifo.linked s.params.capacity → s.fifo.count ≠ s.params.capacity →
    (∃ t, exec (decodeOf 0x1E s.params) s = .next t ∧ t.fifo.contents s.params.capacity =
      s.fifo.contents s.params.capacity ++ [if s.mod.shift ^^ s.mod.caps then 0x41 else 0x61]) ∧
    (∃ t, exec (decodeOf 0x02 s.params) s = .next t ∧ t.fifo.contents s.params.capacity =
      s.fifo.contents s.params.capacity ++ [if s.mod.shift then 0x21 else 0x31]) ∧
    (∃ t, exec (decodeOf 0x03 s.params) s = .next t ∧ t.fifo.contents s.params.capacity =
      s.fifo.contents s.params.capacity ++ [if s.mod.shift then 0x40 else 0x32])

/-- R159 and R160 (the source's press and release property): a key pressed and released leaves what its press left. -/
def Obligations.PressAndReleaseIsOnePress : Prop :=
  ∀ (s : State) (code : Code), s.life = .ready →
    execAll [.keyMk code, .keyBrk code] s = exec (.keyMk code) s

/-- R155 and R156: any number of caps-lock presses and then one release toggle `MOD.caps` exactly once. -/
def Obligations.CapsLockTogglesOncePerRelease : Prop :=
  ∀ (n : Nat) (s : State), s.life = .ready → Rom.wf s.rom s.params = true →
    execAll (List.replicate n .capsMk ++ [.capsBrk]) s =
      .next { s with mod := { s.mod with caps := !s.mod.caps, ext := false } }

/-! ## GETCHAR -/

/-- 43_driver_api.md R185 with R103: GETCHAR completes at once; on an empty FIFO it returns `none` and the block is
unchanged, else it returns the byte at `tail`. The result goes to the caller; STORE is never written. -/
def Obligations.GetcharPopsOrReturnsNone : Prop :=
  ∀ s : State, s.life = .ready →
    (s.fifo.count = 0 →
      exec .getchar s = .next { s with results := s.results ++ [⟨s.caller, none⟩] }) ∧
    (0 < s.fifo.count → ∃ t, exec .getchar s = .next t ∧
      t.results = s.results ++ [⟨s.caller, some (Memory.read s.fifo.store s.fifo.tail)⟩] ∧
      t.fifo.tail = (s.fifo.tail + 1) % s.params.capacity ∧
      t.fifo.count + 1 = s.fifo.count ∧ t.fifo.head = s.fifo.head ∧
      (∀ a, Memory.read t.fifo.store a = Memory.read s.fifo.store a) ∧
      t.mod = s.mod ∧ t.rom = s.rom ∧ t.life = s.life ∧ t.params = s.params ∧ t.schedule = s.schedule ∧
      t.caller = s.caller)

/-- R187: GETCHAR never reads or writes MOD and never reads the ROM. -/
def Obligations.GetcharIsIndependentOfModAndRom : Prop :=
  ∀ (s : State) (m : ModReg) (r : Rom),
    exec .getchar { s with mod := m, rom := r } =
      mapNext (fun t => { t with mod := m, rom := r }) (exec .getchar s)

/-- 30_encoding.md R76: the wires of a result; the data of `none` is a free value and nothing is said of it. -/
def Obligations.ResultWireForm : Prop :=
  (∀ (n : Nat) (v : Byte), (resultWire n (some v)).getLsbD 8 = true ∧
      (resultWire n (some v)).extractLsb' 0 8 = v) ∧
  ∀ n : Nat, (resultWire n none).getLsbD 8 = false

/-! ## Whole-machine rules -/

/-- 00_scope.md R13 and 60_exceptions.md R200 and R201: a step ends in a next state or in a refusal, never in a fault, and it is refused
exactly in the uses that have no meaning, each under its own name: a word that spells no transaction (R72, R73), a DECODE
or GETCHAR before INIT (R182), a second INIT (R184), and a make byte that reaches LOOKUP over a ROM that is not one of
this block (U13; that it is refused there is the model's choice, log entry 12). -/
def Obligations.StepsEndInNextOrANamedRefusal : Prop :=
  (∀ (s : State) (r : Refusal), step s = .refused r ↔
    ∃ d rest, s.schedule = d :: rest ∧
      ((∃ why, r = .noTransaction why ∧ decode d.word s.params = .reject why) ∨
       (r = .decodeBeforeInit ∧ s.life = .uninit ∧ opOf d.word = 0b00) ∨
       (r = .getcharBeforeInit ∧ s.life = .uninit ∧ d.word = 0x100) ∨
       (r = .repeatedInit ∧ s.life = .ready ∧ d.word = 0x200) ∨
       (r = .illFormedRom ∧ s.life = .ready ∧ Rom.wf s.rom s.params = false ∧ ∃ i,
          decode d.word s.params = .transaction i ∧ (i = .capsMk ∨ i = .numMk ∨ ∃ code, i = .keyMk code)))) ∧
  ∀ s : State, (∃ t, step s = .next t) ∨ ∃ r, step s = .refused r

/-- 10_state.md R33, with R24 to R26, R29 and R133: who writes what. The ROM and the parameters are
written by nothing, LIFE by INIT alone, each
modifier by its own key (and INIT), `head` and STORE by a KEY make, `tail` by GETCHAR, and the interface record by
no DECODE and no INIT. -/
def Obligations.EachElementHasItsWriters : Prop :=
  ∀ (i : Instr) (s t : State), exec i s = .next t →
    t.params = s.params ∧ t.rom = s.rom ∧ t.schedule = s.schedule ∧ t.caller = s.caller ∧
    (t.life ≠ s.life → i = .init) ∧
    (t.mod.shift ≠ s.mod.shift → i = .shiftLMk ∨ i = .shiftRMk ∨ i = .shiftLBrk ∨ i = .shiftRBrk ∨ i = .init) ∧
    (t.mod.caps ≠ s.mod.caps → i = .capsBrk ∨ i = .init) ∧
    (t.mod.num ≠ s.mod.num → i = .numBrk ∨ i = .init) ∧
    (t.mod.ext ≠ s.mod.ext → i.isDecode = true ∨ i = .init) ∧
    (t.fifo.store ≠ s.fifo.store → ∃ code, i = .keyMk code) ∧
    (t.fifo.head ≠ s.fifo.head → (∃ code, i = .keyMk code) ∨ i = .init) ∧
    (t.fifo.tail ≠ s.fifo.tail → i = .getchar ∨ i = .init) ∧
    (t.fifo.count ≠ s.fifo.count → (∃ code, i = .keyMk code) ∨ i = .getchar ∨ i = .init) ∧
    (t.results ≠ s.results → i = .getchar)

/-- R132: no transaction reads a virtual key code and no result depends on one: two ROMs that differ in them alone give
the same outcome but for the ROM itself. The reference fill sets them to 0x00. -/
def Obligations.VirtualKeyCodesAreUnobservable : Prop :=
  (∀ (i : Instr) (s : State) (r : Rom), Rom.withoutVk r = Rom.withoutVk s.rom →
    exec i { s with rom := r } = mapNext (fun t => { t with rom := r }) (exec i s)) ∧
  Rom.withoutVk referenceFill = referenceFill

/-- 60_exceptions.md R208: the block checks nothing about the caller: another caller gets the same outcome, under its own
name in the results. -/
def Obligations.CallerIsNeverChecked : Prop :=
  ∀ (i : Instr) (s : State) (a : Agent),
    (i ≠ .getchar → exec i { s with caller := a } = mapNext (fun t => { t with caller := a }) (exec i s)) ∧
    (∀ t, exec .getchar s = .next t → ∃ v, t.results = s.results ++ [⟨s.caller, v⟩] ∧
      exec .getchar { s with caller := a } =
        .next { t with caller := a, results := s.results ++ [⟨a, v⟩] })

/-- 20_memory.md R63 and 42_decoder.md R166: nothing blocks: after INIT, with a ROM of this block, every schedule of DECODEs
and GETCHARs runs to its end, one step a transaction. -/
def Obligations.EveryServableScheduleCompletes : Prop :=
  ∀ s : State, s.life = .ready → Rom.wf s.rom s.params = true → (∀ d ∈ s.schedule, servable d.word) →
    ∃ t, runsTo s.schedule.length s t ∧ t.schedule = [] ∧ t.life = .ready ∧ t.rom = s.rom

/-- 20_memory.md R57 and 10_state.md R33: MOD is touched by DECODE alone: two machines that differ in
capacity, ROM, ROM depth and letter ranges alone and two schedules with the same DECODE words, however GETCHARs are
interleaved and whatever the FIFOs hold, end with the same MOD. -/
def Obligations.ConsumersCannotInfluenceMod : Prop :=
  ∀ (s s' t t' : State), s.life = .ready → s'.life = .ready →
    s'.params = { s.params with
      capacity := s'.params.capacity, romDepth := s'.params.romDepth, letterRanges := s'.params.letterRanges } →
    Rom.wf s.rom s.params = true → Rom.wf s'.rom s'.params = true →
    s.mod = s'.mod → (∀ d ∈ s.schedule, servable d.word) → (∀ d ∈ s'.schedule, servable d.word) →
    decodesOf s.schedule = decodesOf s'.schedule →
    runsTo s.schedule.length s t → runsTo s'.schedule.length s' t' → t.mod = t'.mod

/-! ## The invariant and the order of characters -/

/-- The invariant holds at power-on, for every capacity from 1 on and every ROM of this block; and at this hardware's
reset. -/
def Obligations.PowerOnMeetsTheInvariant : Prop :=
  (∀ (P : Config.Params) (rom : Rom), 1 ≤ P.capacity → Rom.wf rom P = true → (State.powerOn P rom).Inv) ∧
  State.reset.Inv

/-- 10_state.md R31, 41_scancode_rom.md R129, 20_memory.md R52: from every state that meets the invariant a step gives one that
meets it: the pointers are in range and agree, every queued slot is written, STORE stays canonical and inside its slots. -/
def Obligations.EveryStepKeepsTheInvariant : Prop :=
  ∀ s t : State, s.Inv → step s = .next t → t.Inv

/-- 20_memory.md R61(a), (b): a step extends the record of accepted characters (returned, then queued) by exactly what it
pushes: none is repeated, skipped or reordered, and a dropped character never enters. -/
def Obligations.EachStepAcceptsInOrder : Prop :=
  ∀ (s t : State) (d : Delivery) (rest : List Delivery) (i : Instr),
    s.Inv → s.life = .ready → s.schedule = d :: rest → decode d.word s.params = .transaction i →
    step s = .next t →
    t.accepted = s.accepted ++ acceptedBy i s

/-- 20_memory.md R61(b) over whole runs: whatever the schedule, what was accepted stays accepted in order, and what the
consumers receive is a prefix of it. -/
def Obligations.RunsNeverReorderCharacters : Prop :=
  ∀ (n : Nat) (s t : State), s.Inv → s.life = .ready → runsTo n s t →
    s.accepted <+: t.accepted ∧ s.returned <+: t.returned ∧ t.returned <+: t.accepted

/-! ## The FIFO, for every capacity -/

/-- 40_ring_buffer.md R101: PUSH rejects on a full FIFO and writes nothing; else it writes STORE at `head` alone, moves
`head` by `next` and counts one more. -/
def Obligations.PushWritesAtHead : Prop :=
  ∀ (cap : Nat) (f : Fifo) (c : Byte),
    (f.count = cap → f.push cap c = (false, f)) ∧
    (f.count ≠ cap →
      (f.push cap c).1 = true ∧ Memory.read (f.push cap c).2.store f.head = c ∧
      (∀ a, a ≠ f.head → Memory.read (f.push cap c).2.store a = Memory.read f.store a) ∧
      (f.push cap c).2.head = nextIndex cap f.head ∧ (f.push cap c).2.tail = f.tail ∧
      (f.push cap c).2.count = f.count + 1)

/-- R103: POP returns `none` on an empty FIFO and changes nothing; else it returns the byte at `tail`, moves `tail` by
`next`, counts one less and leaves STORE and `head`. -/
def Obligations.PopReadsAtTail : Prop :=
  ∀ (cap : Nat) (f : Fifo),
    (f.count = 0 → f.pop cap = (none, f)) ∧
    (f.count ≠ 0 →
      (f.pop cap).1 = some (Memory.read f.store f.tail) ∧ (f.pop cap).2.tail = nextIndex cap f.tail ∧
      (f.pop cap).2.count + 1 = f.count ∧ (f.pop cap).2.head = f.head ∧ (f.pop cap).2.store = f.store)

/-- R100: `next` adds one and wraps at the capacity; `count` goes up by one exactly on a successful PUSH, with room, and
down by one exactly on a successful POP, with a byte there; so no index leaves its range (10_state.md R31). -/
def Obligations.NextWrapsAtTheCapacity : Prop :=
  ∀ (cap : Nat) (f : Fifo) (c : Byte), f.inRange cap →
    (∀ i, i < cap → nextIndex cap i = (i + 1) % cap ∧
      nextIndex cap i = if i + 1 = cap then 0 else i + 1) ∧
    ((f.push cap c).1 = true ↔ f.count < cap) ∧
    ((f.push cap c).2.count = if (f.push cap c).1 then f.count + 1 else f.count) ∧
    ((f.pop cap).1.isSome = true ↔ 0 < f.count) ∧
    ((f.pop cap).2.count = if (f.pop cap).1.isSome then f.count - 1 else f.count) ∧
    (f.push cap c).2.inRange cap ∧ (f.pop cap).2.inRange cap

/-- R102: a successful PUSH appends to the abstract content; on a full FIFO the PUSH leaves everything unchanged. -/
def Obligations.PushAppendsToTheContent : Prop :=
  ∀ (cap : Nat) (f : Fifo) (c : Byte), f.linked cap →
    (f.count = cap → (f.push cap c).2 = f ∧ (f.push cap c).2.contents cap = f.contents cap) ∧
    (f.count ≠ cap → (f.push cap c).2.contents cap = f.contents cap ++ [c])

/-- R104: POP on an empty content returns `none` and leaves it empty; on `v` followed by `R` it returns `v` and leaves `R`. -/
def Obligations.PopTakesTheOldest : Prop :=
  ∀ (cap : Nat) (f : Fifo), f.tail < cap →
    (f.contents cap = [] → (f.pop cap).1 = none ∧ (f.pop cap).2.contents cap = []) ∧
    ∀ (v : Byte) (r : List Byte), f.contents cap = v :: r →
      (f.pop cap).1 = some v ∧ (f.pop cap).2.contents cap = r

/-- R107: (a) pushes within the capacity and then equal pops return the bytes in push order; (b) from any state,
after exactly as many successful pushes as there is room, a further push fails and alters nothing. -/
def Obligations.PoppedOrderEqualsPushOrder : Prop :=
  ∀ (cap : Nat) (f : Fifo) (cs : List Byte), f.linked cap →
    (f.count = 0 → cs.length ≤ cap →
      f.pushResults cap cs = List.replicate cs.length true ∧
      (f.pushAll cap cs).popResults cap cs.length = cs.map some) ∧
    (cs.length = f.room cap →
      f.pushResults cap cs = List.replicate cs.length true ∧ (f.pushAll cap cs).count = cap ∧
      (f.pushAll cap cs).contents cap = f.contents cap ++ cs ∧
      ∀ c, (f.pushAll cap cs).push cap c = (false, f.pushAll cap cs))

/-- 10_state.md R30: an index takes the fewest bits that hold its largest legal value, 7 for each at capacity 100, and
the pointers in range as such bits lose nothing. -/
def Obligations.IndicesFitTheirBits : Prop :=
  (∀ n : Nat, (∀ i, i ≤ n → i < 2 ^ Config.indexWidth n) ∧ ∀ w, n < 2 ^ w → Config.indexWidth n ≤ w) ∧
  Config.indexWidth (Config.hw.capacity - 1) = 7 ∧ Config.indexWidth Config.hw.capacity = 7 ∧
  ∀ (cap : Nat) (f : Fifo), f.inRange cap →
    (f.headBits cap).toNat = f.head ∧ (f.tailBits cap).toNat = f.tail ∧ (f.countBits cap).toNat = f.count

/-- The model's canonical form of STORE (log entry 3): two stores in it that hold the same written bytes are equal data. -/
def Obligations.CanonicalStoresWithEqualBytesAreEqual : Prop :=
  ∀ m m' : Memory, Memory.wf m → Memory.wf m' →
    (∀ a, Memory.written? m a = Memory.written? m' a) → m = m'

/-! ## The ROM and the layouts -/

/-- 41_scancode_rom.md R124: under the position invariant of R122, LOOKUP in a ROM of `ROM_DEPTH` words equals its
direct-indexed form. -/
def Obligations.LookupEqualsDirectIndexing : Prop :=
  ∀ (P : Config.Params) (rom : Rom) (code : Code), rom.length = P.romDepth → Rom.positioned rom = true →
    lookup rom code =
      if code.toNat < P.romDepth then rom[code.toNat]?.filter (·.raw != 0) else none

/-- R123: LOOKUP finds the first position whose `raw` is the code and not 0, and otherwise `none`; code 0x00 gives `none`,
and in a ROM of this block so does a code from `ROM_DEPTH` (0x5E) up. -/
def Obligations.LookupFindsTheFirstMatch : Prop :=
  (∀ (rom : Rom) (code : Code) (e : ScancodeEntry), lookup rom code = some e ↔
    ∃ i : Nat, rom[i]? = some e ∧ e.raw.toNat = code.toNat ∧ e.raw ≠ 0 ∧
      ∀ (j : Nat) (e' : ScancodeEntry), j < i → rom[j]? = some e' → e'.raw.toNat ≠ code.toNat ∨ e'.raw = 0) ∧
  (∀ rom : Rom, lookup rom 0 = none) ∧
  (∀ (P : Config.Params) (rom : Rom) (code : Code), Rom.wf rom P = true → P.romDepth ≤ code.toNat →
    lookup rom code = none) ∧
  ∀ (rom : Rom) (code : Code), Rom.wf rom Config.hw = true → 0x5E ≤ code.toNat → lookup rom code = none

/-- R129, R130 and R134: the reference fill is a ROM of this block, holds the keys the source fixes, and has the rule's
counts. -/
def Obligations.ReferenceFillMeetsItsRules : Prop :=
  Rom.wf referenceFill = true ∧ Rom.holdsFixedKeys referenceFill = true ∧
  referenceFill.countP (fun e => e.raw != 0) = 86 ∧ referenceFill.countP (fun e => e.raw == 0) = 8 ∧
  (∀ i, i < 94 → (referenceFill[i]?.map (·.raw) = some 0 ↔ i ∈ [0x00, 0x55, 0x56, 0x59, 0x5A, 0x5B, 0x5C, 0x5D])) ∧
  (List.range 94).countP (fun n => isLetterKey (BitVec.ofNat 7 n)) = 26 ∧
  referenceFill.countP (fun e => e.unshifted != 0) = 66 ∧ referenceFill.countP (fun e => e.shifted != 0) = 66 ∧
  referenceFill.all (fun e => (e.unshifted != 0) == (e.shifted != 0)) = true

/-- 30_encoding.md R81 and 10_state.md R23: the fields stand at the bits the rules give, and the layouts lose nothing. -/
def Obligations.LayoutsPlaceTheirFields : Prop :=
  (∀ e : ScancodeEntry, e.toWord.extractLsb' 0 8 = e.raw ∧ e.toWord.extractLsb' 8 8 = e.unshifted ∧
      e.toWord.extractLsb' 16 8 = e.shifted ∧ e.toWord.extractLsb' 24 8 = e.vk ∧
      ScancodeEntry.ofWord e.toWord = e) ∧
  (∀ w : BitVec 32, (ScancodeEntry.ofWord w).toWord = w) ∧
  (∀ m : ModReg, m.bits.getLsbD 0 = m.shift ∧ m.bits.getLsbD 1 = m.caps ∧ m.bits.getLsbD 2 = m.num ∧
      m.bits.getLsbD 3 = m.ext ∧ ModReg.ofBits m.bits = m) ∧
  ∀ v : BitVec 4, (ModReg.ofBits v).bits = v
end

