-- ==== Sys2Proof/Laws/Decode.lean ====
section
/-! SUPPORT. The fields of words and bytes: what was put in is read back. -/
namespace Sys2Proof

@[simp] theorem opOf_wordOf (op : BitVec 2) (data : Byte) : opOf (wordOf op data) = op := by
  unfold opOf wordOf
  ext i hi
  rw [BitVec.getElem_extractLsb']
  exact BitVec.getLsbD_append.trans (by simp [BitVec.getLsbD_eq_getElem hi])

@[simp] theorem dataOf_wordOf (op : BitVec 2) (data : Byte) : dataOf (wordOf op data) = data := by
  unfold dataOf wordOf
  ext i hi
  rw [BitVec.getElem_extractLsb']
  exact BitVec.getLsbD_append.trans (by simp [hi])

/-- A word is its two fields. -/
theorem wordOf_fields (w : TWord) : wordOf (opOf w) (dataOf w) = w := by
  unfold opOf wordOf dataOf
  ext i hi
  simp only [BitVec.getElem_append]
  split
  · simp [BitVec.getElem_extractLsb', BitVec.getLsbD_eq_getElem hi]
  · rename_i h
    simp [BitVec.getElem_extractLsb', show 8 + (i - 8) = i by omega, BitVec.getLsbD_eq_getElem hi]

/-- What it says that a byte can be spelt. -/
theorem spells_iff {P : Config.Params} {release : Bool} {code : Code} :
    P.spells release code = true ↔
      isRelease (byteOf release code P) P = release ∧ baseCode (byteOf release code P) P = code ∧
        byteOf release code P ≠ P.extByte := by
  simp [Config.Params.spells, and_assoc]

/-- With the masks 0x80 and 0x7F the release bit is bit 7 (R77). -/
theorem isRelease_eq_bit {P : Config.Params} (h : P.releaseMask = 0x80) (b : Byte) :
    isRelease b P = b.getLsbD 7 := by
  rw [isRelease, h]; revert b; decide

/-- With the masks 0x80 and 0x7F the base code is the field `b[6:0]` (R77). -/
theorem baseCode_eq_field {P : Config.Params} (h : P.baseMask = 0x7F) (b : Byte) :
    baseCode b P = b.extractLsb' 0 7 := by
  rw [baseCode, h]; revert b; decide

/-- With the masks 0x80 and 0x7F a byte is its release bit and its base code. -/
theorem byteOf_fields {P : Config.Params} (hr : P.releaseMask = 0x80) (hb : P.baseMask = 0x7F) (b : Byte) :
    byteOf (isRelease b P) (baseCode b P) P = b := by
  rw [byteOf, isRelease_eq_bit hr, baseCode_eq_field hb, hr]; revert b; decide

end Sys2Proof
end

