-- ==== Sys2Proof/Laws/Memory.lean ====
section
/-! SUPPORT. The laws of the byte storage: a read after a write, and the canonical form. -/
namespace Sys2Proof.Machine

theorem written?_write (m : Memory) (a x : Nat) (v : Byte) :
    Memory.written? (Memory.write m a v) x = if x = a then some v else Memory.written? m x := by
  induction m with
  | nil => simp [Memory.write, Memory.written?]
  | cons c m ih =>
    obtain ⟨b, u⟩ := c
    simp only [Memory.write]
    split
    · simp [Memory.written?]
    · split
      · subst b
        simp only [Memory.written?]
        split <;> simp_all
      · simp only [Memory.written?, ih]
        split
        · rw [if_neg (by omega)]
        · rfl

/-- A write changes what is read at its address. -/
theorem read_write_same (m : Memory) (a : Nat) (v : Byte) : Memory.read (Memory.write m a v) a = v := by
  simp [Memory.read, written?_write]

/-- A write leaves every other address. -/
theorem read_write_other (m : Memory) {a x : Nat} (v : Byte) (h : x ≠ a) :
    Memory.read (Memory.write m a v) x = Memory.read m x := by
  simp [Memory.read, written?_write, h]

/-- A write lists no address but its own and the old ones. -/
theorem mem_write {m : Memory} {a : Nat} {v : Byte} {c : Host.Cell} (h : c ∈ Memory.write m a v) :
    c = (a, v) ∨ c ∈ m := by
  induction m with
  | nil => simpa [Memory.write] using h
  | cons d m ih =>
    simp only [Memory.write] at h
    split at h
    · simpa using h
    · split at h
      · simp only [List.mem_cons] at h ⊢
        tauto
      · simp only [List.mem_cons] at h ⊢
        rcases h with h | h
        · exact .inr (.inl h)
        · exact (ih h).imp id .inr

/-- Every write keeps the canonical form; a read changes nothing, so every memory operation does. -/
theorem write_keeps_wf {m : Memory} (a : Nat) (v : Byte) (h : Memory.wf m) : Memory.wf (Memory.write m a v) := by
  induction m with
  | nil => simp [Memory.write]
  | cons c m ih =>
    obtain ⟨b, u⟩ := c
    obtain ⟨hb, hm⟩ := List.pairwise_cons.mp h
    simp only [Memory.write]
    split
    · rename_i lt
      refine List.pairwise_cons.mpr ⟨fun x hx => ?_, h⟩
      rcases List.mem_cons.mp hx with rfl | hx
      · exact lt
      · exact Nat.lt_trans lt (hb x hx)
    · split
      · rename_i eq
        subst eq
        exact List.pairwise_cons.mpr ⟨hb, hm⟩
      · refine List.pairwise_cons.mpr ⟨fun x hx => ?_, ih hm⟩
        rcases mem_write hx with rfl | hx
        · simp only; omega
        · exact hb x hx

end Sys2Proof.Machine
end

