-- ==== Sys2Proof/Laws/Fifo.lean ====
section
/-! SUPPORT. What PUSH, POP and INIT's pointer reset can do, once each, for every capacity. -/
namespace Sys2Proof.Machine

section
variable {cap : Nat} (f : Fifo) (c : Byte)

theorem push_full {f : Fifo} (c : Byte) (h : f.count = cap) : f.push cap c = (false, f) := by simp [Fifo.push, h]

theorem push_room {f : Fifo} (c : Byte) (h : f.count ≠ cap) :
    f.push cap c =
      (true,
        { f with
          store := Memory.write f.store f.head c
          head := nextIndex cap f.head
          count := f.count + 1 }) := by simp [Fifo.push, h]

theorem pop_empty {f : Fifo} (h : f.count = 0) : f.pop cap = (none, f) := by simp [Fifo.pop, h]

theorem pop_some {f : Fifo} (h : f.count ≠ 0) :
    f.pop cap =
      (some (Memory.read f.store f.tail), { f with tail := nextIndex cap f.tail, count := f.count - 1 }) := by
  simp [Fifo.pop, h]

/-- Everything PUSH can do. -/
theorem push_cases :
    (f.count = cap ∧ f.push cap c = (false, f)) ∨
    (f.count ≠ cap ∧ (f.push cap c).1 = true ∧ (f.push cap c).2.store = Memory.write f.store f.head c ∧
      (f.push cap c).2.head = nextIndex cap f.head ∧ (f.push cap c).2.tail = f.tail ∧
      (f.push cap c).2.count = f.count + 1) := by
  by_cases h : f.count = cap
  · exact .inl ⟨h, push_full c h⟩
  · exact .inr ⟨h, by simp [push_room c h]⟩

/-- Everything POP can do. -/
theorem pop_cases :
    (f.count = 0 ∧ f.pop cap = (none, f)) ∨
    (0 < f.count ∧ (f.pop cap).1 = some (Memory.read f.store f.tail) ∧ (f.pop cap).2.store = f.store ∧
      (f.pop cap).2.head = f.head ∧ (f.pop cap).2.tail = nextIndex cap f.tail ∧
      (f.pop cap).2.count = f.count - 1) := by
  by_cases h : f.count = 0
  · exact .inl ⟨h, pop_empty h⟩
  · exact .inr ⟨by omega, by simp [pop_some h]⟩

@[simp] theorem push_tail : (f.push cap c).2.tail = f.tail := by
  rcases push_cases (cap := cap) f c with ⟨-, h⟩ | ⟨-, -, -, -, h, -⟩ <;> simp [h]

@[simp] theorem pop_store : (f.pop cap).2.store = f.store := by
  rcases pop_cases (cap := cap) f with ⟨-, h⟩ | ⟨-, -, h, -⟩ <;> simp [h]

@[simp] theorem pop_head : (f.pop cap).2.head = f.head := by
  rcases pop_cases (cap := cap) f with ⟨-, h⟩ | ⟨-, -, -, h, -⟩ <;> simp [h]

@[simp] theorem created_store : f.created.store = f.store := rfl
@[simp] theorem created_head : f.created.head = 0 := rfl
@[simp] theorem created_tail : f.created.tail = 0 := rfl
@[simp] theorem created_count : f.created.count = 0 := rfl

/-- `next` of any index lies inside the capacity. -/
theorem nextIndex_lt (h : 0 < cap) (i : Nat) : nextIndex cap i < cap := Nat.mod_lt _ h

/-- The slots after a POP are the slots before it, one on. -/
theorem slot_next {f g : Fifo} (h : g.tail = nextIndex cap f.tail) (k : Nat) : g.slot cap k = f.slot cap (k + 1) := by
  simp only [Fifo.slot, h, nextIndex, Nat.mod_add_mod]
  congr 1
  omega

/-- Two of the first `cap` slots from `tail` on are never the same. -/
theorem slot_inj {f : Fifo} (ht : f.tail < cap) {i j : Nat} (hi : i < cap) (hj : j < cap)
    (h : f.slot cap i = f.slot cap j) : i = j := by
  have wrap : ∀ k, k < cap → (f.tail + k) % cap =
      if f.tail + k < cap then f.tail + k else f.tail + k - cap := fun k hk => by
    split
    · rename_i h; exact Nat.mod_eq_of_lt h
    · rename_i h
      rw [Nat.mod_eq_sub_mod (by omega), Nat.mod_eq_of_lt (by omega)]
  simp only [Fifo.slot, wrap i hi, wrap j hj] at h
  split at h <;> split at h <;> omega

/-- PUSH keeps the pointers in range. -/
theorem push_keeps_inRange {f : Fifo} (h : f.inRange cap) (c : Byte) : (f.push cap c).2.inRange cap := by
  rcases push_cases (cap := cap) f c with ⟨-, e⟩ | ⟨ne, -, -, e1, e2, e3⟩
  · simpa only [e] using h
  · obtain ⟨hh, ht, hc⟩ := h
    exact ⟨e1 ▸ nextIndex_lt (by omega) _, e2 ▸ ht, by omega⟩

/-- POP keeps the pointers in range. -/
theorem pop_keeps_inRange {f : Fifo} (h : f.inRange cap) : (f.pop cap).2.inRange cap := by
  rcases pop_cases (cap := cap) f with ⟨-, e⟩ | ⟨-, -, -, e1, e2, e3⟩
  · simpa only [e] using h
  · obtain ⟨hh, ht, hc⟩ := h
    exact ⟨e1 ▸ hh, e2 ▸ nextIndex_lt (by omega) _, by omega⟩

/-- PUSH keeps STORE canonical and inside its slots. -/
theorem push_keeps_storeWf {f : Fifo} (hh : f.head < cap) (c : Byte) (h : f.storeWf cap) :
    (f.push cap c).2.storeWf cap := by
  rcases push_cases (cap := cap) f c with ⟨-, e⟩ | ⟨-, -, e, -⟩
  · simpa [e] using h
  · refine ⟨e ▸ write_keeps_wf _ _ h.1, fun x hx => ?_⟩
    rw [e] at hx
    rcases mem_write hx with rfl | hx
    · exact hh
    · exact h.2 x hx

end

end Sys2Proof.Machine
end

