-- ==== Sys2Proof/Laws/State.lean ====
section
/-! SUPPORT. What each shared write to the state changes and leaves, one field a lemma. -/
namespace Sys2Proof.Machine

section
variable (s : State) (v : Bool)

@[simp] theorem setExt_mod : (s.setExt v).mod = { s.mod with ext := v } := rfl
@[simp] theorem setExt_params : (s.setExt v).params = s.params := rfl
@[simp] theorem setExt_fifo : (s.setExt v).fifo = s.fifo := rfl
@[simp] theorem setExt_rom : (s.setExt v).rom = s.rom := rfl
@[simp] theorem setExt_life : (s.setExt v).life = s.life := rfl
@[simp] theorem setExt_schedule : (s.setExt v).schedule = s.schedule := rfl
@[simp] theorem setExt_caller : (s.setExt v).caller = s.caller := rfl
@[simp] theorem setExt_results : (s.setExt v).results = s.results := rfl

@[simp] theorem setShift_mod : (s.setShift v).mod = { s.mod with shift := v } := rfl
@[simp] theorem setShift_params : (s.setShift v).params = s.params := rfl
@[simp] theorem setShift_fifo : (s.setShift v).fifo = s.fifo := rfl
@[simp] theorem setShift_rom : (s.setShift v).rom = s.rom := rfl
@[simp] theorem setShift_life : (s.setShift v).life = s.life := rfl
@[simp] theorem setShift_schedule : (s.setShift v).schedule = s.schedule := rfl
@[simp] theorem setShift_caller : (s.setShift v).caller = s.caller := rfl
@[simp] theorem setShift_results : (s.setShift v).results = s.results := rfl

@[simp] theorem setCaps_mod : (s.setCaps v).mod = { s.mod with caps := v } := rfl
@[simp] theorem setCaps_params : (s.setCaps v).params = s.params := rfl
@[simp] theorem setCaps_fifo : (s.setCaps v).fifo = s.fifo := rfl
@[simp] theorem setCaps_rom : (s.setCaps v).rom = s.rom := rfl
@[simp] theorem setCaps_life : (s.setCaps v).life = s.life := rfl
@[simp] theorem setCaps_schedule : (s.setCaps v).schedule = s.schedule := rfl
@[simp] theorem setCaps_caller : (s.setCaps v).caller = s.caller := rfl
@[simp] theorem setCaps_results : (s.setCaps v).results = s.results := rfl

@[simp] theorem setNum_mod : (s.setNum v).mod = { s.mod with num := v } := rfl
@[simp] theorem setNum_params : (s.setNum v).params = s.params := rfl
@[simp] theorem setNum_fifo : (s.setNum v).fifo = s.fifo := rfl
@[simp] theorem setNum_rom : (s.setNum v).rom = s.rom := rfl
@[simp] theorem setNum_life : (s.setNum v).life = s.life := rfl
@[simp] theorem setNum_schedule : (s.setNum v).schedule = s.schedule := rfl
@[simp] theorem setNum_caller : (s.setNum v).caller = s.caller := rfl
@[simp] theorem setNum_results : (s.setNum v).results = s.results := rfl

end

section
variable (s : State) (ch : Option Byte)

theorem emitted_eq (code : Code) : s.emitted code = emission s.params s.rom s.mod code := rfl

@[simp] theorem emit_none : s.emit none = s := rfl
@[simp] theorem emit_some_fifo (c : Byte) : (s.emit (some c)).fifo = (s.fifo.push s.params.capacity c).2 := rfl
@[simp] theorem emit_params : (s.emit ch).params = s.params := by cases ch <;> rfl
@[simp] theorem emit_mod : (s.emit ch).mod = s.mod := by cases ch <;> rfl
@[simp] theorem emit_rom : (s.emit ch).rom = s.rom := by cases ch <;> rfl
@[simp] theorem emit_life : (s.emit ch).life = s.life := by cases ch <;> rfl
@[simp] theorem emit_schedule : (s.emit ch).schedule = s.schedule := by cases ch <;> rfl
@[simp] theorem emit_caller : (s.emit ch).caller = s.caller := by cases ch <;> rfl
@[simp] theorem emit_results : (s.emit ch).results = s.results := by cases ch <;> rfl

@[simp] theorem respond_params : (s.respond ch).params = s.params := rfl
@[simp] theorem respond_mod : (s.respond ch).mod = s.mod := rfl
@[simp] theorem respond_fifo : (s.respond ch).fifo = s.fifo := rfl
@[simp] theorem respond_rom : (s.respond ch).rom = s.rom := rfl
@[simp] theorem respond_life : (s.respond ch).life = s.life := rfl
@[simp] theorem respond_schedule : (s.respond ch).schedule = s.schedule := rfl
@[simp] theorem respond_caller : (s.respond ch).caller = s.caller := rfl
@[simp] theorem respond_results : (s.respond ch).results = s.results ++ [⟨s.caller, ch⟩] := rfl

@[simp] theorem bringUp_params : s.bringUp.params = s.params := rfl
@[simp] theorem bringUp_mod : s.bringUp.mod = ⟨false, false, false, false⟩ := rfl
@[simp] theorem bringUp_fifo : s.bringUp.fifo = s.fifo.created := rfl
@[simp] theorem bringUp_rom : s.bringUp.rom = s.rom := rfl
@[simp] theorem bringUp_life : s.bringUp.life = .ready := rfl
@[simp] theorem bringUp_schedule : s.bringUp.schedule = s.schedule := rfl
@[simp] theorem bringUp_caller : s.bringUp.caller = s.caller := rfl
@[simp] theorem bringUp_results : s.bringUp.results = s.results := rfl

end

end Sys2Proof.Machine
end

