-- ==== Sys2Proof/Laws/Ops.lean ====
section
/-! SUPPORT. What each shared operation of a transaction can answer, once each. -/
namespace Sys2Proof.Machine

/-- A transaction that waits for INIT goes on exactly when LIFE is READY. -/
theorem whenReady_next {refusal : Refusal} {s t : State} {after : Outcome} :
    whenReady refusal s after = .next t ↔ s.life = .ready ∧ after = .next t := by
  cases h : s.life <;> simp [whenReady, h]

@[simp] theorem whenReady_ready {refusal : Refusal} {s : State} {after : Outcome} (h : s.life = .ready) :
    whenReady refusal s after = after := by simp [whenReady, h]

@[simp] theorem whenReady_uninit {refusal : Refusal} {s : State} {after : Outcome} (h : s.life = .uninit) :
    whenReady refusal s after = .refused refusal := by simp [whenReady, h]

/-- Everything a shift key can do. -/
theorem shiftKey_next {release : Bool} {s t : State} :
    shiftKey release s = .next t ↔ s.life = .ready ∧ (s.setShift (!release)).setExt false = t := by
  simp [shiftKey, whenReady_next]

/-- Everything a make byte that reaches LOOKUP can do. -/
theorem makeKey_next {code : Code} {s t : State} :
    makeKey code s = .next t ↔
      s.life = .ready ∧ Rom.wf s.rom s.params = true ∧ (s.emit (s.emitted code)).setExt false = t := by
  by_cases h : Rom.wf s.rom s.params = true <;> simp [makeKey, whenReady_next, h]

/-- Everything GETCHAR can do. -/
theorem getchar_next {s t : State} :
    execGetchar s = .next t ↔ s.life = .ready ∧
      { s with fifo := (s.fifo.pop s.params.capacity).2 }.respond (s.fifo.pop s.params.capacity).1 = t := by
  simp [execGetchar, whenReady_next]

/-- Everything INIT can do. -/
theorem init_next {s t : State} : execInit s = .next t ↔ s.life = .uninit ∧ s.bringUp = t := by
  cases h : s.life <;> simp [execInit, h]

/-- Where a make byte stores nothing, it leaves the FIFO. -/
theorem emit_without_slot {s : State} {code : Code} (h : makeSlot code s = none) :
    (s.emit (s.emitted code)).fifo = s.fifo := by
  unfold makeSlot at h
  split at h
  · rename_i e; simp [e]
  · rename_i c e
    have full : s.fifo.count = s.params.capacity := by
      by_contra ne
      simp [Fifo.pushSlot, ne] at h
    simp [e, push_full _ full]

/-- Taking the next transaction: the schedule's first word, from the state without it. -/
theorem takeNext_cases (s : State) :
    (s.schedule = [] ∧ takeNext s = none) ∨
    ∃ d rest, s.schedule = d :: rest ∧
      takeNext s = some (d.word, { s with schedule := rest, caller := d.agent }) := by
  cases h : s.schedule with
  | nil => exact .inl ⟨rfl, by simp [takeNext, h]⟩
  | cons d rest => exact .inr ⟨d, rest, rfl, by simp [takeNext, h]⟩

/-- Everything one step can do, if it answers a next state. -/
theorem step_next {s t : State} (h : step s = .next t) :
    (s.schedule = [] ∧ t = s) ∨
    ∃ d rest i, s.schedule = d :: rest ∧ decode d.word s.params = .transaction i ∧
      exec i { s with schedule := rest, caller := d.agent } = .next t := by
  rcases takeNext_cases s with ⟨e, n⟩ | ⟨d, rest, e, n⟩
  · simp only [step, n, idle] at h
    cases h
    exact .inl ⟨e, rfl⟩
  · simp only [step, n] at h
    cases hd : decode d.word s.params with
    | reject why => simp [hd] at h
    | transaction i => exact .inr ⟨d, rest, i, e, hd, by simpa [hd] using h⟩

end Sys2Proof.Machine
end

