-- ==== Sys2Proof/Laws/PerInstr.lean ====
section
/-!
SUPPORT. Facts stated of each transaction as syntax. Family Framed: the word of a transaction, for any key
positions, is one 30_encoding.md R70 to R73 give a meaning to.
-/
namespace Sys2Proof.Laws

/-- The encoded word has `op` 0b00, or a control `op` with zero data. -/
def Framed.Statement (i : Instr) : Prop :=
  ∀ P : Config.Params,
    (i.isDecode = true ∧ opOf (encode i P) = 0b00) ∨
    (i.isDecode = false ∧ (opOf (encode i P) = 0b01 ∨ opOf (encode i P) = 0b10) ∧ dataOf (encode i P) = 0)

theorem Framed.extPrefix : Framed.Statement .extPrefix := fun P => by simp [encode, Instr.isDecode]
theorem Framed.shiftLMk : Framed.Statement .shiftLMk := fun P => by simp [encode, Instr.isDecode]
theorem Framed.shiftRMk : Framed.Statement .shiftRMk := fun P => by simp [encode, Instr.isDecode]
theorem Framed.shiftLBrk : Framed.Statement .shiftLBrk := fun P => by simp [encode, Instr.isDecode]
theorem Framed.shiftRBrk : Framed.Statement .shiftRBrk := fun P => by simp [encode, Instr.isDecode]
theorem Framed.capsBrk : Framed.Statement .capsBrk := fun P => by simp [encode, Instr.isDecode]
theorem Framed.numBrk : Framed.Statement .numBrk := fun P => by simp [encode, Instr.isDecode]
theorem Framed.capsMk : Framed.Statement .capsMk := fun P => by simp [encode, Instr.isDecode]
theorem Framed.numMk : Framed.Statement .numMk := fun P => by simp [encode, Instr.isDecode]
theorem Framed.keyBrk : ∀ code, Framed.Statement (.keyBrk code) := fun code P => by simp [encode, Instr.isDecode]
theorem Framed.keyMk : ∀ code, Framed.Statement (.keyMk code) := fun code P => by simp [encode, Instr.isDecode]
theorem Framed.getchar : Framed.Statement .getchar := fun P => by simp [encode, Instr.isDecode]
theorem Framed.init : Framed.Statement .init := fun P => by simp [encode, Instr.isDecode]

end Sys2Proof.Laws
end

