-- ==== Sys2Proof/Laws/Rom.lean ====
section
/-! SUPPORT. What the ROM conditions give: entries sit at their own positions. -/
namespace Sys2Proof.Machine

/-- The position invariant at one position, for the words from position `i` on. -/
theorem positionedFrom_get {rom : Rom} {i : Nat} (h : Rom.positionedFrom i rom = true) {k : Nat}
    {e : ScancodeEntry} (hk : rom[k]? = some e) : e.raw = 0 ∨ e.raw.toNat = i + k := by
  induction rom generalizing i k with
  | nil => simp at hk
  | cons d rest ih =>
    simp only [Rom.positionedFrom, Bool.and_eq_true, Bool.or_eq_true, beq_iff_eq] at h
    cases k with
    | zero =>
      obtain rfl : d = e := by simpa using hk
      simpa using h.1
    | succ k =>
      exact (ih h.2 (k := k) (by simpa using hk)).imp id (by omega)

/-- R122 at one position. -/
theorem positioned_get {rom : Rom} (h : Rom.positioned rom = true) {k : Nat} {e : ScancodeEntry}
    (hk : rom[k]? = some e) : e.raw = 0 ∨ e.raw.toNat = k := by
  simpa using positionedFrom_get h hk

theorem wf_length {rom : Rom} {P : Config.Params} (h : Rom.wf rom P = true) : rom.length = P.romDepth := by
  simp only [Rom.wf, Bool.and_eq_true, beq_iff_eq] at h
  exact h.1.1.1

theorem wf_positioned {rom : Rom} {P : Config.Params} (h : Rom.wf rom P = true) : Rom.positioned rom = true := by
  simp only [Rom.wf, Bool.and_eq_true] at h
  exact h.1.1.2

theorem wf_silentAt_caps {rom : Rom} {P : Config.Params} (h : Rom.wf rom P = true) : Rom.silentAt rom P.caps = true := by
  simp only [Rom.wf, Bool.and_eq_true] at h
  exact h.1.2

theorem wf_silentAt_num {rom : Rom} {P : Config.Params} (h : Rom.wf rom P = true) : Rom.silentAt rom P.num = true := by
  simp only [Rom.wf, Bool.and_eq_true] at h
  exact h.2

/-- LOOKUP answers with an entry of the ROM whose `raw` is the code and not 0 (R123). -/
theorem lookup_some {rom : Rom} {code : Code} {e : ScancodeEntry} (h : lookup rom code = some e) :
    e ∈ rom ∧ e.raw = code.setWidth 8 ∧ e.raw ≠ 0 := by
  have := List.find?_some h
  simp only [ScancodeEntry.answers, Bool.and_eq_true, beq_iff_eq, bne_iff_ne] at this
  exact ⟨List.mem_of_find?_eq_some h, this⟩

/-- A position under R129(b) emits nothing, whatever MOD holds (R155, R158). -/
theorem emission_silent {rom : Rom} {code : Code} (hp : Rom.positioned rom = true)
    (hs : Rom.silentAt rom code = true) (P : Config.Params) (m : ModReg) : emission P rom m code = none := by
  unfold emission
  cases hl : lookup rom code with
  | none => rfl
  | some e =>
    obtain ⟨mem, raw, nz⟩ := lookup_some hl
    obtain ⟨k, hk⟩ := List.getElem?_of_mem mem
    have pos := (positioned_get hp hk).resolve_left nz
    have code_eq : k = code.toNat := by
      rw [← pos, raw, BitVec.toNat_setWidth]
      exact Nat.mod_eq_of_lt (by have := code.isLt; omega)
    simp only [Rom.silentAt, ← code_eq, hk, Bool.or_eq_true, Bool.and_eq_true, beq_iff_eq] at hs
    obtain ⟨hu, hsh⟩ := hs.resolve_left nz
    simp only [selectChar, hu, hsh]
    split <;> rfl

end Sys2Proof.Machine
end

