-- ==== Sys2Proof/Tests/Slice0.lean ====
section
/-!
SUPPORT. The model's own tests. Expected values are the spec's: the worked examples and vectors of
95_test_vectors.md (W, DV, TV, FV, LV, AV), the decode map of 30_encoding.md R83 and the examples of the rules.
The last section shows, for each statement with hypotheses, inputs that meet them together.
-/
namespace Sys2Proof.Tests

open Sys2Proof Sys2Proof.Machine

/-! ## Helpers -/

/-- A READY block with this MOD, this FIFO and the reference fill. -/
def ready (mod : BitVec 4) (fifo : Fifo) : State :=
  { State.reset with life := .ready, mod := ModReg.ofBits mod, fifo := fifo }

/-- A FIFO from its pointers and its written bytes. -/
def fifoAt (head tail count : Nat) (store : Memory) : Fifo :=
  ⟨head, tail, count, store⟩

/-- The empty FIFO after INIT. -/
def empty : Fifo := fifoAt 0 0 0 []

/-- A full FIFO, all 100 slots written, `head` = `tail` = 37 (FV5). -/
def full : Fifo := fifoAt 37 37 100 ((List.range 100).map fun a => (a, 0x61))

/-- MOD after a next state. -/
def modOf : Outcome → Option (BitVec 4)
  | .next t => some t.mod.bits
  | .fault _ => none
  | .refused _ => none

/-- The queued bytes after a next state. -/
def queueOf : Outcome → Option (List Byte)
  | .next t => some (t.fifo.contents t.params.capacity)
  | .fault _ => none
  | .refused _ => none

/-- head, tail and count after a next state. -/
def pointersOf : Outcome → Option (Nat × Nat × Nat)
  | .next t => some (t.fifo.head, t.fifo.tail, t.fifo.count)
  | .fault _ => none
  | .refused _ => none

/-- The results after a next state. -/
def resultsOf : Outcome → Option (List (Option Byte))
  | .next t => some (t.results.map (·.value))
  | .fault _ => none
  | .refused _ => none

/-- Why an outcome is a refusal. -/
def refusalOf : Outcome → Option Refusal
  | .next _ => none
  | .fault _ => none
  | .refused r => some r

/-- MOD out and what is queued, after DECODE of a byte from this MOD and an empty FIFO (the vectors DV). -/
def dv (mod : BitVec 4) (b : Byte) : Option (BitVec 4) × Option (List Byte) :=
  (modOf (exec (decodeOf b) (ready mod empty)), queueOf (exec (decodeOf b) (ready mod empty)))

/-! ## Well-formedness refuses ill-formed terms -/

theorem test_wf_key_make_at_shift_l : Instr.wf (.keyMk 0x2A) = false := by decide
theorem test_wf_key_make_at_num : Instr.wf (.keyMk 0x45) = false := by decide
theorem test_wf_key_break_at_caps : Instr.wf (.keyBrk 0x3A) = false := by decide
theorem test_wf_key_break_shadowed : Instr.wf (.keyBrk 0x60) = false := by decide
theorem test_wf_key_make_at_60 : Instr.wf (.keyMk 0x60) = true := by decide
theorem test_wf_params : Config.hw.wf = true := by decide
theorem test_wf_params_same_position : Config.Params.wf { Config.hw with num := 0x3A } = false := by decide
theorem test_wf_params_shadowed : Config.Params.wf { Config.hw with caps := 0x60 } = false := by decide

/-- R128: the four positions are outside the letter ranges. -/
theorem test_positions_are_no_letters : Config.hw.positions.all (fun c => !isLetterKey c Config.hw) = true := by decide

/-! ## The words, written out from R70 and R78, and the verdicts TV -/

theorem test_decode_prefix : decode 0b00_11100000 = .transaction .extPrefix := by decide
theorem test_decode_shift_l_mk : decode 0b00_00101010 = .transaction .shiftLMk := by decide
theorem test_decode_shift_r_mk : decode 0b00_00110110 = .transaction .shiftRMk := by decide
theorem test_decode_shift_l_brk : decode 0b00_10101010 = .transaction .shiftLBrk := by decide
theorem test_decode_shift_r_brk : decode 0b00_10110110 = .transaction .shiftRBrk := by decide
theorem test_decode_caps_brk : decode 0b00_10111010 = .transaction .capsBrk := by decide
theorem test_decode_num_brk : decode 0b00_11000101 = .transaction .numBrk := by decide
theorem test_decode_caps_mk : decode 0b00_00111010 = .transaction .capsMk := by decide
theorem test_decode_num_mk : decode 0b00_01000101 = .transaction .numMk := by decide
theorem test_decode_key_brk : decode 0b00_11111111 = .transaction (.keyBrk 0x7F) := by decide
theorem test_decode_key_mk : decode 0b00_00000000 = .transaction (.keyMk 0) := by decide
theorem test_decode_getchar : decode 0b01_00000000 = .transaction .getchar := by decide
theorem test_decode_init : decode 0b10_00000000 = .transaction .init := by decide
/-- TV5 and TV7. -/
theorem test_decode_data_not_zero : decode 0x101 = .reject .dataNotZero ∧ decode 0x280 = .reject .dataNotZero := by decide
/-- TV8 and TV9. -/
theorem test_decode_reserved : decode 0x300 = .reject .reservedOp ∧ decode 0x3FF = .reject .reservedOp := by decide
/-- The table's words, and one of more than 10 bits. -/
theorem test_table_words : decodeTableWord 16 0x0BA = some .capsBrk ∧ decodeTableWord 16 0x400 = none := by decide
/-- R82 and the encoding of P4's first lines. -/
theorem test_assembler : assemble [.init, .ext 0x2A, .tap 0x1E, .shiftUp] = [0x200, 0x0E0, 0x02A, 0x01E, 0x09E, 0x0AA] := by
  decide

/-! ## DECODE, the vectors DV -/

/-- DV1, DV2 -/
theorem test_prefix : dv 0b0000 0xE0 = (some 0b1000, some []) ∧ dv 0b1000 0xE0 = (some 0b1000, some []) := by decide
/-- DV8 -/
theorem test_shift_l_mk : dv 0b1001 0x2A = (some 0b0001, some []) := by decide
/-- DV4 -/
theorem test_shift_r_mk : dv 0b0000 0x36 = (some 0b0001, some []) := by decide
/-- DV5, DV7 -/
theorem test_shift_l_brk : dv 0b0001 0xAA = (some 0, some []) ∧ dv 0b0000 0xAA = (some 0, some []) := by decide
/-- DV6 -/
theorem test_shift_r_brk : dv 0b0001 0xB6 = (some 0b0000, some []) := by decide
/-- DV9 -/
theorem test_caps_mk : dv 0b0000 0x3A = (some 0b0000, some []) := by decide
/-- DV10, DV12 -/
theorem test_caps_brk : dv 0b0000 0xBA = (some 0b0010, some []) ∧ dv 0b1010 0xBA = (some 0, some []) := by decide
/-- R158's example: ext cleared -/
theorem test_num_mk : dv 0b1000 0x45 = (some 0b0000, some []) := by decide
/-- DV14, DV15 -/
theorem test_num_brk : dv 0b0000 0xC5 = (some 0b0100, some []) ∧ dv 0b0100 0xC5 = (some 0, some []) := by decide
/-- DV46, DV49 -/
theorem test_key_brk : dv 0b0001 0x9E = (some 1, some []) ∧ dv 0b0000 0xE1 = (some 0, some []) := by decide
/-- DV19, DV45 -/
theorem test_key_mk : dv 0b0011 0x1E = (some 3, some [0x61]) ∧ dv 0b1000 0x48 = (some 0, some [0x38]) := by decide
/-- A full FIFO drops the character and keeps its pointers (P3 step 102, FV5). -/
theorem test_key_mk_full : pointersOf (exec (.keyMk 0x1E) (ready 0 full)) = some (37, 37, 100) := by decide

/-! ## INIT and GETCHAR, the vectors AV and the programs P5, P6 -/

/-- AV1, from a power-on whose unspecified elements are not 0 -/
theorem test_init :
    modOf (exec .init { State.reset with mod := ModReg.ofBits 0xF, fifo := fifoAt 5 2 3 [] }) = some 0 ∧
    pointersOf (exec .init { State.reset with fifo := fifoAt 5 2 3 [] }) = some (0, 0, 0) := by decide
/-- AV2, AV3, AV4 -/
theorem test_refusals :
    refusalOf (exec .init (ready 0 empty)) = some .repeatedInit ∧
    refusalOf (exec (.keyMk 0x1E) State.reset) = some .decodeBeforeInit ∧
    refusalOf (exec .getchar State.reset) = some .getcharBeforeInit := by decide
/-- AV6 -/
theorem test_getchar :
    pointersOf (exec .getchar (ready 0 (fifoAt 3 1 2 [(1, 0x48), (2, 0x69)]))) = some (3, 2, 1) ∧
    resultsOf (exec .getchar (ready 0 (fifoAt 3 1 2 [(1, 0x48), (2, 0x69)]))) = some [some 0x48] := by decide
/-- AV5 -/
theorem test_getchar_empty :
    pointersOf (exec .getchar (ready 0 empty)) = some (0, 0, 0) ∧
    resultsOf (exec .getchar (ready 0 empty)) = some [none] := by decide
/-- P5: GETCHAR delivered at power-on -/
theorem test_step_refuses : refusalOf (step { State.reset with schedule := [⟨.consumer 1, 0x100⟩] }) = some .getcharBeforeInit := by
  decide
/-- P6: the reserved word -/
theorem test_step_reserved :
    refusalOf (step { ready 0 empty with schedule := [⟨.boot, 0x300⟩] }) = some (.noTransaction .reservedOp) := by decide
/-- A placed word is performed by the next step, here `a` (R130). -/
theorem test_fetch_word : queueOf (step (State.reset.withFetchWord 16 0x01E)) = some [0x61] := by decide
/-- The ROM of U13, a character at the caps-lock position. -/
def capsSpeaks : Rom := referenceFill.set 0x3A ⟨0x3A, 0x63, 0x43, 0⟩
theorem test_ill_formed_rom :
    refusalOf (exec .capsMk { ready 0 empty with rom := capsSpeaks }) = some .illFormedRom ∧
    Rom.wf (referenceFill.set 0x10 ⟨0x11, 0x71, 0x51, 0⟩) = false ∧ Rom.wf referenceFill.tail = false := by decide

/-! ## PUSH and POP, the vectors FV -/

/-- FV3: `head` wraps and the FIFO is full. -/
theorem test_push_wraps :
    let f := ((fifoAt 99 0 99 []).push 100 0x7A).2
    (f.head, f.tail, f.count, Memory.written? f.store 99) = (0, 0, 100, some 0x7A) := by decide
/-- FV4 -/
theorem test_push_full : (fifoAt 0 0 100 [(0, 0x61)]).push 100 0x41 = (false, fifoAt 0 0 100 [(0, 0x61)]) := by decide
/-- FV9: `tail` wraps. -/
theorem test_pop_wraps :
    let f := fifoAt 5 99 6 [(0, 0x32), (1, 0x33), (2, 0x34), (3, 0x35), (4, 0x36), (99, 0x31)]
    (f.pop 100).1 = some 0x31 ∧ (f.pop 100).2.tail = 0 ∧ (f.pop 100).2.contents 100 = [0x32, 0x33, 0x34, 0x35, 0x36] := by decide
/-- FV7 -/
theorem test_pop_empty : (fifoAt 37 37 0 []).pop 100 = (none, fifoAt 37 37 0 []) := by decide
/-- A write keeps the addresses rising and replaces its own. -/
theorem test_memory_write : Memory.write (Memory.write [(3, 1)] 1 2) 3 4 = [(1, 2), (3, 4)] := by decide
/-- R30. -/
theorem test_index_width : Config.indexWidth 99 = 7 ∧ Config.indexWidth 100 = 7 ∧ Config.indexWidth 0 = 0 := by decide

/-! ## LOOKUP and the layouts, the vectors LV -/

/-- LV8, LV17, LV1, LV22, LV23 -/
theorem test_lookup :
    lookup referenceFill 0x1E = some ⟨0x1E, 0x61, 0x41, 0⟩ ∧ lookup referenceFill 0x3A = some ⟨0x3A, 0, 0, 0⟩ ∧
    lookup referenceFill 0x00 = none ∧ lookup referenceFill 0x5D = none ∧ lookup referenceFill 0x5E = none := by decide
/-- R81 and R23. -/
theorem test_layouts :
    ScancodeEntry.toWord ⟨0x1E, 0x61, 0x41, 0x99⟩ = 0x9941611E ∧ ModReg.bits ⟨true, false, false, true⟩ = 0b1001 := by decide
/-- R76. -/
theorem test_result_wire : resultWire 0 (some 0x61) = 0b1_01100001 := by decide

/-! ## The decode map of every make byte (R83) -/

/-- A row of R83: class, whether LOOKUP finds an entry (not said for the shift keys), and the byte pushed under
(shift, caps) = (0,0), (1,0), (0,1), (1,1), 0 for none. -/
structure MapRow where
  /-- the class column -/
  kind : ByteClass
  /-- the ROM entry column -/
  found : Option Bool
  /-- shift=0 caps=0 -/
  plain : Byte
  /-- shift=1 caps=0 -/
  shift : Byte
  /-- shift=0 caps=1 -/
  caps : Byte
  /-- shift=1 caps=1 -/
  both : Byte

/-- R83, make bytes 0x00 to 0x0F. -/
def map0 : List MapRow :=
  [⟨.keyMk, some false, 0x00, 0x00, 0x00, 0x00⟩, ⟨.keyMk, some true, 0x1B, 0x1B, 0x1B, 0x1B⟩,
   ⟨.keyMk, some true, 0x31, 0x21, 0x31, 0x21⟩, ⟨.keyMk, some true, 0x32, 0x40, 0x32, 0x40⟩,
   ⟨.keyMk, some true, 0x33, 0x23, 0x33, 0x23⟩, ⟨.keyMk, some true, 0x34, 0x24, 0x34, 0x24⟩,
   ⟨.keyMk, some true, 0x35, 0x25, 0x35, 0x25⟩, ⟨.keyMk, some true, 0x36, 0x5E, 0x36, 0x5E⟩,
   ⟨.keyMk, some true, 0x37, 0x26, 0x37, 0x26⟩, ⟨.keyMk, some true, 0x38, 0x2A, 0x38, 0x2A⟩,
   ⟨.keyMk, some true, 0x39, 0x28, 0x39, 0x28⟩, ⟨.keyMk, some true, 0x30, 0x29, 0x30, 0x29⟩,
   ⟨.keyMk, some true, 0x2D, 0x5F, 0x2D, 0x5F⟩, ⟨.keyMk, some true, 0x3D, 0x2B, 0x3D, 0x2B⟩,
   ⟨.keyMk, some true, 0x08, 0x08, 0x08, 0x08⟩, ⟨.keyMk, some true, 0x09, 0x09, 0x09, 0x09⟩]

/-- R83, make bytes 0x10 to 0x1F. -/
def map1 : List MapRow :=
  [⟨.keyMk, some true, 0x71, 0x51, 0x51, 0x71⟩, ⟨.keyMk, some true, 0x77, 0x57, 0x57, 0x77⟩,
   ⟨.keyMk, some true, 0x65, 0x45, 0x45, 0x65⟩, ⟨.keyMk, some true, 0x72, 0x52, 0x52, 0x72⟩,
   ⟨.keyMk, some true, 0x74, 0x54, 0x54, 0x74⟩, ⟨.keyMk, some true, 0x79, 0x59, 0x59, 0x79⟩,
   ⟨.keyMk, some true, 0x75, 0x55, 0x55, 0x75⟩, ⟨.keyMk, some true, 0x69, 0x49, 0x49, 0x69⟩,
   ⟨.keyMk, some true, 0x6F, 0x4F, 0x4F, 0x6F⟩, ⟨.keyMk, some true, 0x70, 0x50, 0x50, 0x70⟩,
   ⟨.keyMk, some true, 0x5B, 0x7B, 0x5B, 0x7B⟩, ⟨.keyMk, some true, 0x5D, 0x7D, 0x5D, 0x7D⟩,
   ⟨.keyMk, some true, 0x0A, 0x0A, 0x0A, 0x0A⟩, ⟨.keyMk, some true, 0x00, 0x00, 0x00, 0x00⟩,
   ⟨.keyMk, some true, 0x61, 0x41, 0x41, 0x61⟩, ⟨.keyMk, some true, 0x73, 0x53, 0x53, 0x73⟩]

/-- R83, make bytes 0x20 to 0x2F. -/
def map2 : List MapRow :=
  [⟨.keyMk, some true, 0x64, 0x44, 0x44, 0x64⟩, ⟨.keyMk, some true, 0x66, 0x46, 0x46, 0x66⟩,
   ⟨.keyMk, some true, 0x67, 0x47, 0x47, 0x67⟩, ⟨.keyMk, some true, 0x68, 0x48, 0x48, 0x68⟩,
   ⟨.keyMk, some true, 0x6A, 0x4A, 0x4A, 0x6A⟩, ⟨.keyMk, some true, 0x6B, 0x4B, 0x4B, 0x6B⟩,
   ⟨.keyMk, some true, 0x6C, 0x4C, 0x4C, 0x6C⟩, ⟨.keyMk, some true, 0x3B, 0x3A, 0x3B, 0x3A⟩,
   ⟨.keyMk, some true, 0x27, 0x22, 0x27, 0x22⟩, ⟨.keyMk, some true, 0x60, 0x7E, 0x60, 0x7E⟩,
   ⟨.shiftMk, none, 0x00, 0x00, 0x00, 0x00⟩, ⟨.keyMk, some true, 0x5C, 0x7C, 0x5C, 0x7C⟩,
   ⟨.keyMk, some true, 0x7A, 0x5A, 0x5A, 0x7A⟩, ⟨.keyMk, some true, 0x78, 0x58, 0x58, 0x78⟩,
   ⟨.keyMk, some true, 0x63, 0x43, 0x43, 0x63⟩, ⟨.keyMk, some true, 0x76, 0x56, 0x56, 0x76⟩]

/-- R83, make bytes 0x30 to 0x3F. -/
def map3 : List MapRow :=
  [⟨.keyMk, some true, 0x62, 0x42, 0x42, 0x62⟩, ⟨.keyMk, some true, 0x6E, 0x4E, 0x4E, 0x6E⟩,
   ⟨.keyMk, some true, 0x6D, 0x4D, 0x4D, 0x6D⟩, ⟨.keyMk, some true, 0x2C, 0x3C, 0x2C, 0x3C⟩,
   ⟨.keyMk, some true, 0x2E, 0x3E, 0x2E, 0x3E⟩, ⟨.keyMk, some true, 0x2F, 0x3F, 0x2F, 0x3F⟩,
   ⟨.shiftMk, none, 0x00, 0x00, 0x00, 0x00⟩, ⟨.keyMk, some true, 0x2A, 0x2A, 0x2A, 0x2A⟩,
   ⟨.keyMk, some true, 0x00, 0x00, 0x00, 0x00⟩, ⟨.keyMk, some true, 0x20, 0x20, 0x20, 0x20⟩,
   ⟨.capsMk, some true, 0x00, 0x00, 0x00, 0x00⟩, ⟨.keyMk, some true, 0x00, 0x00, 0x00, 0x00⟩,
   ⟨.keyMk, some true, 0x00, 0x00, 0x00, 0x00⟩, ⟨.keyMk, some true, 0x00, 0x00, 0x00, 0x00⟩,
   ⟨.keyMk, some true, 0x00, 0x00, 0x00, 0x00⟩, ⟨.keyMk, some true, 0x00, 0x00, 0x00, 0x00⟩]

/-- R83, make bytes 0x40 to 0x4F. -/
def map4 : List MapRow :=
  [⟨.keyMk, some true, 0x00, 0x00, 0x00, 0x00⟩, ⟨.keyMk, some true, 0x00, 0x00, 0x00, 0x00⟩,
   ⟨.keyMk, some true, 0x00, 0x00, 0x00, 0x00⟩, ⟨.keyMk, some true, 0x00, 0x00, 0x00, 0x00⟩,
   ⟨.keyMk, some true, 0x00, 0x00, 0x00, 0x00⟩, ⟨.numMk, some true, 0x00, 0x00, 0x00, 0x00⟩,
   ⟨.keyMk, some true, 0x00, 0x00, 0x00, 0x00⟩, ⟨.keyMk, some true, 0x37, 0x37, 0x37, 0x37⟩,
   ⟨.keyMk, some true, 0x38, 0x38, 0x38, 0x38⟩, ⟨.keyMk, some true, 0x39, 0x39, 0x39, 0x39⟩,
   ⟨.keyMk, some true, 0x2D, 0x2D, 0x2D, 0x2D⟩, ⟨.keyMk, some true, 0x34, 0x34, 0x34, 0x34⟩,
   ⟨.keyMk, some true, 0x35, 0x35, 0x35, 0x35⟩, ⟨.keyMk, some true, 0x36, 0x36, 0x36, 0x36⟩,
   ⟨.keyMk, some true, 0x2B, 0x2B, 0x2B, 0x2B⟩, ⟨.keyMk, some true, 0x31, 0x31, 0x31, 0x31⟩]

/-- R83, make bytes 0x50 to 0x5F. -/
def map5 : List MapRow :=
  [⟨.keyMk, some true, 0x32, 0x32, 0x32, 0x32⟩, ⟨.keyMk, some true, 0x33, 0x33, 0x33, 0x33⟩,
   ⟨.keyMk, some true, 0x30, 0x30, 0x30, 0x30⟩, ⟨.keyMk, some true, 0x2E, 0x2E, 0x2E, 0x2E⟩,
   ⟨.keyMk, some true, 0x00, 0x00, 0x00, 0x00⟩, ⟨.keyMk, some false, 0x00, 0x00, 0x00, 0x00⟩,
   ⟨.keyMk, some false, 0x00, 0x00, 0x00, 0x00⟩, ⟨.keyMk, some true, 0x00, 0x00, 0x00, 0x00⟩,
   ⟨.keyMk, some true, 0x00, 0x00, 0x00, 0x00⟩, ⟨.keyMk, some false, 0x00, 0x00, 0x00, 0x00⟩,
   ⟨.keyMk, some false, 0x00, 0x00, 0x00, 0x00⟩, ⟨.keyMk, some false, 0x00, 0x00, 0x00, 0x00⟩,
   ⟨.keyMk, some false, 0x00, 0x00, 0x00, 0x00⟩, ⟨.keyMk, some false, 0x00, 0x00, 0x00, 0x00⟩,
   ⟨.keyMk, some false, 0x00, 0x00, 0x00, 0x00⟩, ⟨.keyMk, some false, 0x00, 0x00, 0x00, 0x00⟩]

/-- R83, make bytes 0x60 to 0x6F. -/
def map6 : List MapRow :=
  [⟨.keyMk, some false, 0x00, 0x00, 0x00, 0x00⟩, ⟨.keyMk, some false, 0x00, 0x00, 0x00, 0x00⟩,
   ⟨.keyMk, some false, 0x00, 0x00, 0x00, 0x00⟩, ⟨.keyMk, some false, 0x00, 0x00, 0x00, 0x00⟩,
   ⟨.keyMk, some false, 0x00, 0x00, 0x00, 0x00⟩, ⟨.keyMk, some false, 0x00, 0x00, 0x00, 0x00⟩,
   ⟨.keyMk, some false, 0x00, 0x00, 0x00, 0x00⟩, ⟨.keyMk, some false, 0x00, 0x00, 0x00, 0x00⟩,
   ⟨.keyMk, some false, 0x00, 0x00, 0x00, 0x00⟩, ⟨.keyMk, some false, 0x00, 0x00, 0x00, 0x00⟩,
   ⟨.keyMk, some false, 0x00, 0x00, 0x00, 0x00⟩, ⟨.keyMk, some false, 0x00, 0x00, 0x00, 0x00⟩,
   ⟨.keyMk, some false, 0x00, 0x00, 0x00, 0x00⟩, ⟨.keyMk, some false, 0x00, 0x00, 0x00, 0x00⟩,
   ⟨.keyMk, some false, 0x00, 0x00, 0x00, 0x00⟩, ⟨.keyMk, some false, 0x00, 0x00, 0x00, 0x00⟩]

/-- R83, make bytes 0x70 to 0x7F. -/
def map7 : List MapRow :=
  [⟨.keyMk, some false, 0x00, 0x00, 0x00, 0x00⟩, ⟨.keyMk, some false, 0x00, 0x00, 0x00, 0x00⟩,
   ⟨.keyMk, some false, 0x00, 0x00, 0x00, 0x00⟩, ⟨.keyMk, some false, 0x00, 0x00, 0x00, 0x00⟩,
   ⟨.keyMk, some false, 0x00, 0x00, 0x00, 0x00⟩, ⟨.keyMk, some false, 0x00, 0x00, 0x00, 0x00⟩,
   ⟨.keyMk, some false, 0x00, 0x00, 0x00, 0x00⟩, ⟨.keyMk, some false, 0x00, 0x00, 0x00, 0x00⟩,
   ⟨.keyMk, some false, 0x00, 0x00, 0x00, 0x00⟩, ⟨.keyMk, some false, 0x00, 0x00, 0x00, 0x00⟩,
   ⟨.keyMk, some false, 0x00, 0x00, 0x00, 0x00⟩, ⟨.keyMk, some false, 0x00, 0x00, 0x00, 0x00⟩,
   ⟨.keyMk, some false, 0x00, 0x00, 0x00, 0x00⟩, ⟨.keyMk, some false, 0x00, 0x00, 0x00, 0x00⟩,
   ⟨.keyMk, some false, 0x00, 0x00, 0x00, 0x00⟩, ⟨.keyMk, some false, 0x00, 0x00, 0x00, 0x00⟩]

/-- The rows from make byte `b` on hold of the decoder, LOOKUP and the selection. -/
def mapHolds : Nat → List MapRow → Bool
  | _, [] => true
  | b, r :: rest =>
    let code : Code := BitVec.ofNat 7 b
    let pushed (shift caps : Bool) : Byte := (emission Config.hw referenceFill ⟨shift, caps, false, false⟩ code).getD 0
    byteClass (BitVec.ofNat 8 b) == r.kind &&
      (r.found.isNone || r.found == some (lookup referenceFill code).isSome) &&
      pushed false false == r.plain && pushed true false == r.shift &&
      pushed false true == r.caps && pushed true true == r.both && mapHolds (b + 1) rest

theorem test_decode_map_0 : mapHolds 0x00 map0 = true := by decide
theorem test_decode_map_1 : mapHolds 0x10 map1 = true := by decide
theorem test_decode_map_2 : mapHolds 0x20 map2 = true := by decide
theorem test_decode_map_3 : mapHolds 0x30 map3 = true := by decide
theorem test_decode_map_4 : mapHolds 0x40 map4 = true := by decide
theorem test_decode_map_5 : mapHolds 0x50 map5 = true := by decide
theorem test_decode_map_6 : mapHolds 0x60 map6 = true := by decide
theorem test_decode_map_7 : mapHolds 0x70 map7 = true := by decide

/-! ## The parameters of the machine (R9) -/

/-- Any capacity from 1 on and any positions (R9): a machine with room for one byte, its caps-lock and num-lock keys
swapped. -/
def tiny : State :=
  { State.powerOn { Config.hw with capacity := 1, caps := 0x45, num := 0x3A } referenceFill with life := .ready }

/-- A one-byte FIFO takes `a`, drops `b`, and its indices stay 0 (R100, R102 with `CAPACITY` = 1). -/
theorem test_capacity_one :
    pointersOf (execAll [.keyMk 0x1E, .keyMk 0x30] tiny) = some (0, 0, 1) ∧
    queueOf (execAll [.keyMk 0x1E, .keyMk 0x30] tiny) = some [0x61] := by decide

/-- The machine's own positions decide the class of a byte (R78): 0xBA is the num-lock release there. -/
theorem test_positions_are_parameters :
    modOf (step { tiny with schedule := [⟨.producer, 0x0BA⟩] }) = some 0b0100 ∧
    modOf (step (tiny.withFetchWord 16 0x0C5)) = some 0b0010 := by decide

/-- The machine's own letter ranges decide which keys caps lock shifts (R128, R160): with none, `a` stays `a`. -/
theorem test_letter_ranges_are_parameters :
    queueOf (exec (.keyMk 0x1E)
      { ready 0b0010 empty with params := { Config.hw with letterRanges := [] } }) = some [0x61] := by decide

/-- Another prefix and other masks (R9): the prefix 0xE1, the release bit in bit 0 and the base code in bits 6:1, so the
key positions stand at even codes. -/
def shifted : State :=
  { State.powerOn { Config.hw with extByte := 0xE1, releaseMask := 0x01, baseMask := 0x7E, num := 0x44 } referenceFill with
    life := .ready }

/-- The machine's own prefix and masks decide the class of a byte (R77, R78): there 0xE1 is PREFIX, 0x37 the release of the
shift key at 0x36, and 0x1F the release, not the make, of 0x1E. -/
theorem test_prefix_and_masks_are_parameters :
    modOf (step { shifted with schedule := [⟨.producer, 0x0E1⟩] }) = some 0b1000 ∧
    modOf (step { shifted with mod := ModReg.ofBits 0b0001, schedule := [⟨.producer, 0x037⟩] }) = some 0b0000 ∧
    decode 0x01F shifted.params = .transaction (.keyBrk 0x1E) ∧ decode 0x01F = .transaction (.keyMk 0x1F) ∧
    shifted.params.wf = true := by decide

/-- The machine's own ROM depth decides which ROM is one of it (R121, R129), and which codes LOOKUP finds (R124). -/
theorem test_rom_depth_is_a_parameter :
    Rom.wf (referenceFill.take 0x50) { Config.hw with romDepth := 0x50 } = true ∧
    Rom.wf (referenceFill.take 0x50) = false ∧
    lookupDirect (referenceFill.take 0x50) 0x50 { Config.hw with romDepth := 0x50 } = none ∧
    lookupDirect referenceFill 0x50 = some ⟨0x50, 0x32, 0x32, 0⟩ := by decide

/-! ## Witnesses: inputs that meet the hypotheses of each statement together -/

/-- An invariant state with two queued characters and three deliveries to come. -/
def busy : State :=
  { ready 0b0010 (fifoAt 1 99 2 [(0, 0x62), (99, 0x61)]) with
    schedule := [⟨.producer, 0x01E⟩, ⟨.consumer 2, 0x100⟩, ⟨.producer, 0x0BA⟩] }

/-- Another schedule with the same DECODE words, on a machine of another capacity. -/
def busy' : State :=
  { busy with
    params := { Config.hw with capacity := 3 }, fifo := ⟨2, 2, 0, []⟩
    schedule := [⟨.producer, 0x01E⟩, ⟨.producer, 0x0BA⟩] }

theorem wit_StepPerformsTheDeliveredTransaction :
    (busy.schedule.head? = some ⟨.producer, 0x01E⟩ ∧ decode 0x01E = .transaction (.keyMk 0x1E)) ∧
    decode 0x3FF = .reject .reservedOp ∧ State.reset.schedule = [] := by decide
theorem wit_FetchWordIsPerformedNext :
    busy.params.wf = true ∧ State.reset.params.wf = true ∧ tiny.params.wf = true ∧
    Instr.wf .init = true ∧ Instr.wf (.keyMk 0x7F) = true ∧ busy.life = .ready ∧
    Instr.keyMk 0x7F ≠ .init ∧ State.reset.life = .uninit := by decide
theorem wit_EncodedTransactionDecodesBack :
    Config.hw.wf = true ∧ Instr.wf (.keyBrk 0x7F) = true ∧ Instr.wf (.keyMk 0x00) = true ∧
    shifted.params.wf = true ∧ Instr.wf (.keyMk 0x7C) shifted.params = true := by decide
theorem wit_DecodedTransactionEncodesBack :
    Config.hw.releaseMask = 0x80 ∧ Config.hw.baseMask = 0x7F ∧ decode 0x0FF = .transaction (.keyBrk 0x7F) := by decide
theorem wit_RefusedWordsAreTheUnassignedOnes :
    opOf 0x300 = 0b11 ∧ (opOf 0x101 = 0b01 ∧ dataOf 0x101 ≠ 0) ∧ (opOf 0x2FF = 0b10 ∧ dataOf 0x2FF ≠ 0) := by decide
theorem wit_PrefixShadowsTheReleaseOf60 :
    isRelease 0xE0 = true ∧ baseCode 0xE0 = 0x60 ∧ Rom.wf referenceFill Config.hw = true ∧ Config.hw.romDepth ≤ 0x60 := by decide
theorem wit_PowerOnAdmitsOnlyInit : Instr.getchar ≠ .init := by decide
theorem wit_NothingElseIsAdmittedBeforeInit :
    State.reset.life = .uninit ∧ Instr.isDecode .extPrefix = true ∧ Instr.isDecode (.keyMk 0) = true := by decide
theorem wit_InitBringsTheBlockUp : State.reset.life = .uninit ∧ busy.life = .ready := by decide
/-- For SecondInitIsRefused and the statements about one class whose only hypothesis is LIFE. -/
theorem wit_ready : busy.life = .ready := by decide
/-- For LockPressesAreIgnored, CapsLockTogglesOncePerRelease and ClassesImplementThePseudocode. -/
theorem wit_ready_with_rom :
    busy.life = .ready ∧ Rom.wf busy.rom busy.params = true ∧ tiny.life = .ready ∧ Rom.wf tiny.rom tiny.params = true := by decide
theorem wit_UnmappedMakesAreIgnored :
    busy.life = .ready ∧ Rom.wf busy.rom busy.params = true ∧ lookup busy.rom 0x00 = none ∧ lookup busy.rom 0x7F = none := by decide
theorem wit_KeyMakePushesItsCharacter_unmapped :
    busy.rom[(0x55 : Code).toNat]? = some ⟨0, 0, 0, 0⟩ ∧ busy.rom[(0x7F : Code).toNat]? = none := by decide
theorem wit_KeyMakePushesItsCharacter_silent :
    busy.life = .ready ∧ Rom.wf busy.rom busy.params = true ∧ busy.rom[(0x58 : Code).toNat]? = some ⟨0x58, 0, 0, 0⟩ := by decide
theorem wit_KeyMakePushesItsCharacter_full :
    (ready 0 full).life = .ready ∧ Rom.wf (ready 0 full).rom (ready 0 full).params = true ∧
    (ready 0 full).fifo.count = (ready 0 full).params.capacity ∧
    (ready 0 full).rom[(0x01 : Code).toNat]? = some ⟨0x01, 0x1B, 0x1B, 0⟩ := by decide
theorem wit_KeyMakePushesItsCharacter_pushed :
    let s := ready 0b0011 (fifoAt 99 0 99 [])
    s.life = .ready ∧ Rom.wf s.rom s.params = true ∧ s.rom[(0x19 : Code).toNat]? = some ⟨0x19, 0x70, 0x50, 0⟩ ∧
    s.fifo.count ≠ s.params.capacity := by decide
theorem wit_MakeFrame :
    makeSlot 0x1E busy = some 1 ∧ makeSlot 0x3A busy = none ∧
    (queueOf (exec (.keyMk 0x1E) busy)).isSome = true ∧ (queueOf (exec .capsMk busy)).isSome = true ∧
    (queueOf (exec .numMk busy)).isSome = true := by decide
theorem wit_IllFormedRomIsRefused :
    ({ busy with rom := capsSpeaks }).life = .ready ∧ Rom.wf capsSpeaks ({ busy with rom := capsSpeaks }).params = false := by decide
theorem wit_ExtRecordsThePrefix :
    busy.params.extByte = 0xE0 ∧ (modOf (exec (decodeOf 0xE1 shifted.params) shifted)).isSome = true ∧
    (modOf (exec (decodeOf 0xE0 busy.params) busy)).isSome = true ∧ (modOf (exec (decodeOf 0xFF busy.params) busy)).isSome = true := by decide
theorem wit_BreakBytesPushNothing :
    busy.life = .ready ∧ busy.params.releaseMask = 0x80 ∧ (0x80 : Byte).getLsbD 7 = true ∧ (0xFF : Byte).getLsbD 7 = true ∧
    shifted.life = .ready ∧ isRelease 0x1F shifted.params = true := by decide
theorem wit_PrefixDoesNotAlterTheNextByte : busy.life = .ready ∧ Instr.isDecode (.keyMk 0x1C) = true := by decide
theorem wit_LetterAAndDigitsFollowTheirModifiers :
    busy.life = .ready ∧
    busy.params = { Config.hw with capacity := busy.params.capacity, romDepth := busy.params.romDepth } ∧
    Rom.wf busy.rom busy.params = true ∧ Rom.holdsFixedKeys busy.rom = true ∧
    busy.fifo.linked busy.params.capacity ∧ busy.fifo.count ≠ busy.params.capacity := by decide
theorem wit_GetcharPopsOrReturnsNone :
    busy.life = .ready ∧ 0 < busy.fifo.count ∧ (ready 0 empty).fifo.count = 0 := by decide
theorem wit_EachElementHasItsWriters :
    (exec .getchar busy matches .next _) ∧ (exec .init State.reset matches .next _) := by decide
theorem wit_VirtualKeyCodesAreUnobservable :
    Rom.withoutVk (referenceFill.set 0x1E ⟨0x1E, 0x61, 0x41, 0x07⟩) = Rom.withoutVk busy.rom := by decide
theorem wit_StepsEndInNextOrANamedRefusal :
    refusalOf (step { busy with schedule := [⟨.boot, 0x2FF⟩] }) = some (.noTransaction .dataNotZero) ∧
    refusalOf (step { State.reset with schedule := [⟨.producer, 0x0E0⟩] }) = some .decodeBeforeInit ∧
    refusalOf (step { busy with schedule := [⟨.boot, 0x200⟩] }) = some .repeatedInit ∧
    refusalOf (step { busy with rom := capsSpeaks }) = some .illFormedRom ∧
    (step busy matches .next _) := by decide
theorem wit_CallerIsNeverChecked : (exec .getchar busy matches .next _) ∧ Instr.init ≠ .getchar := by decide
theorem wit_EveryServableScheduleCompletes :
    busy.life = .ready ∧ Rom.wf busy.rom busy.params = true ∧ busy.schedule.all (fun d => opOf d.word == 0 || d.word == 0x100) = true := by
  decide
theorem wit_ConsumersCannotInfluenceMod :
    busy.life = .ready ∧ busy'.life = .ready ∧
    busy'.params = { busy.params with
      capacity := busy'.params.capacity, romDepth := busy'.params.romDepth,
      letterRanges := busy'.params.letterRanges } ∧
    Rom.wf busy.rom busy.params = true ∧ Rom.wf busy'.rom busy'.params = true ∧
    busy'.schedule.all (fun d => opOf d.word == 0 || d.word == 0x100) = true ∧ busy.mod = busy'.mod ∧ decodesOf busy.schedule = decodesOf busy'.schedule ∧
    (Host.Core.run Sys2Proof.core 3 busy matches .next _) ∧ (Host.Core.run Sys2Proof.core 2 busy' matches .next _) := by decide
theorem wit_PowerOnMeetsTheInvariant : 1 ≤ tiny.params.capacity ∧ Rom.wf tiny.rom tiny.params = true := by decide
theorem wit_EveryStepKeepsTheInvariant : busy.Inv ∧ (step busy matches .next _) := by decide
theorem wit_EachStepAcceptsInOrder :
    busy.Inv ∧ busy.life = .ready ∧ busy.schedule.head? = some ⟨.producer, 0x01E⟩ ∧
    decode 0x01E busy.params = .transaction (.keyMk 0x1E) ∧ (step busy matches .next _) ∧ acceptedBy (.keyMk 0x1E) busy = [0x41] := by decide
theorem wit_RunsNeverReorderCharacters :
    busy.Inv ∧ busy.life = .ready ∧ (Host.Core.run Sys2Proof.core 3 busy matches .next _) := by decide

/-- A FIFO of two slots, one byte queued at the wrap. -/
def small : Fifo := ⟨0, 1, 1, [(1, 0x61)]⟩

/-- The same FIFO full. -/
def smallFull : Fifo := ⟨1, 1, 2, [(0, 0x62), (1, 0x61)]⟩

/-- The empty FIFO of two slots. -/
def smallEmpty : Fifo := ⟨1, 1, 0, []⟩

theorem wit_PushWritesAtHead : small.count ≠ 2 ∧ smallFull.count = 2 := by decide
theorem wit_PopReadsAtTail : small.count ≠ 0 ∧ empty.count = 0 := by decide
theorem wit_NextWrapsAtTheCapacity : small.inRange 2 ∧ smallFull.inRange 2 ∧ smallEmpty.inRange 2 ∧ 1 < 2 := by decide
theorem wit_PushAppendsToTheContent :
    small.linked 2 ∧ small.count ≠ 2 ∧ smallFull.linked 2 ∧ smallFull.count = 2 := by decide
theorem wit_PopTakesTheOldest :
    empty.tail < 100 ∧ empty.contents 100 = [] ∧ smallFull.tail < 2 ∧ smallFull.contents 2 = 0x61 :: [0x62] := by decide
theorem wit_PoppedOrderEqualsPushOrder :
    empty.linked 100 ∧ empty.count = 0 ∧ [(0x61 : Byte), 0x62, 0x63].length ≤ 100 ∧
    small.linked 2 ∧ [(0x62 : Byte)].length = small.room 2 := by decide
/-- Where both clauses meet: an empty FIFO and as many bytes as it holds; and a full one with no byte to push. -/
theorem wit_PoppedOrderEqualsPushOrder_boundary :
    smallEmpty.linked 2 ∧ smallEmpty.count = 0 ∧ [(0x61 : Byte), 0x62].length ≤ 2 ∧
    [(0x61 : Byte), 0x62].length = smallEmpty.room 2 ∧
    (smallEmpty.pushAll 2 [0x61, 0x62]).popResults 2 2 = [some 0x61, some 0x62] ∧
    smallFull.linked 2 ∧ ([] : List Byte).length = smallFull.room 2 := by decide
theorem wit_IndicesFitTheirBits : 99 ≤ 99 ∧ 99 < 2 ^ 7 ∧ (fifoAt 99 99 100 []).inRange 100 := by decide
theorem wit_CanonicalStoresWithEqualBytesAreEqual : Memory.wf smallFull.store ∧ Memory.wf [] := by decide
theorem wit_LookupEqualsDirectIndexing :
    referenceFill.length = Config.hw.romDepth ∧ Rom.positioned referenceFill = true := by decide
theorem wit_LookupFindsTheFirstMatch :
    lookup referenceFill 0x58 = some ⟨0x58, 0, 0, 0⟩ ∧ Rom.wf referenceFill = true ∧ 0x5E ≤ (0x5E : Code).toNat ∧
    Config.hw.romDepth ≤ (0x5E : Code).toNat := by decide

end Sys2Proof.Tests
end

/-!
SUPPORT. When a step is refused, and under which name: the word's verdict, then what each shared operation of a
transaction refuses, then the transaction and the step as a whole.
-/
namespace Sys2Proof

/-! ## Which words spell which kind of transaction -/

/-- A word is known by its two fields (R70). -/
theorem word_eq_iff {w v : TWord} : w = v ↔ opOf w = opOf v ∧ dataOf w = dataOf v :=
  ⟨fun h => by simp [h], fun ⟨op, data⟩ => by rw [← wordOf_fields w, op, data, wordOf_fields]⟩

theorem word_eq_getchar_iff {w : TWord} : w = 0x100 ↔ opOf w = 0b01 ∧ dataOf w = 0 := word_eq_iff

theorem word_eq_init_iff {w : TWord} : w = 0x200 ↔ opOf w = 0b10 ∧ dataOf w = 0 := word_eq_iff

/-- The row of a byte class is a DECODE. -/
theorem row_isDecode (c : ByteClass) (code : Code) (P : Config.Params) : (c.row code P).isDecode = true := by
  cases c with
  | shiftMk | shiftBrk => simp only [ByteClass.row]; split <;> rfl
  | extPrefix | capsBrk | numBrk | capsMk | numMk | keyBrk | keyMk => rfl

theorem decodeOf_isDecode (b : Byte) (P : Config.Params) : (decodeOf b P).isDecode = true := row_isDecode _ _ P

/-- What a word that spells a transaction is, by the transaction's kind (R71, R72). -/
theorem decode_transaction_cases {w : TWord} {P : Config.Params} {i : Instr} (h : decode w P = .transaction i) :
    (opOf w = 0b00 ∧ i.isDecode = true) ∨ (w = 0x100 ∧ i = .getchar) ∨ (w = 0x200 ∧ i = .init) := by
  rw [word_eq_getchar_iff, word_eq_init_iff]
  unfold decode at h
  split_ifs at h with op00 op01 zero op10 zero <;> cases h
  · exact .inl ⟨op00, decodeOf_isDecode _ P⟩
  · exact .inr (.inl ⟨⟨op01, zero⟩, rfl⟩)
  · exact .inr (.inr ⟨⟨op10, zero⟩, rfl⟩)

theorem decode_of_opOf_zero {w : TWord} (P : Config.Params) (h : opOf w = 0b00) :
    decode w P = .transaction (decodeOf (dataOf w) P) := by simp [decode, h]

/-- The words with `op` 0b00 are those that spell a DECODE, whatever the parameters (R71). -/
theorem spells_decode_iff {w : TWord} {P : Config.Params} :
    (∃ i, decode w P = .transaction i ∧ i.isDecode = true) ↔ opOf w = 0b00 := by
  constructor
  · rintro ⟨i, h, isDec⟩
    rcases decode_transaction_cases h with ⟨op, -⟩ | ⟨-, rfl⟩ | ⟨-, rfl⟩
    · exact op
    · cases isDec
    · cases isDec
  · exact fun op => ⟨_, decode_of_opOf_zero P op, decodeOf_isDecode _ P⟩

theorem decode_eq_getchar_iff {w : TWord} {P : Config.Params} : decode w P = .transaction .getchar ↔ w = 0x100 := by
  constructor
  · intro h
    rcases decode_transaction_cases h with ⟨-, isDec⟩ | ⟨e, -⟩ | ⟨-, e⟩
    · cases isDec
    · exact e
    · cases e
  · rintro rfl; rfl

theorem decode_eq_init_iff {w : TWord} {P : Config.Params} : decode w P = .transaction .init ↔ w = 0x200 := by
  constructor
  · intro h
    rcases decode_transaction_cases h with ⟨-, isDec⟩ | ⟨-, e⟩ | ⟨e, -⟩
    · cases isDec
    · cases e
    · exact e
  · rintro rfl; rfl

end Sys2Proof

namespace Sys2Proof.Machine

/-! ## What the shared operations refuse -/

/-- A transaction that waits for INIT is refused under its own name before it, and as its body is after it. -/
theorem whenReady_refused {name r : Refusal} {s : State} {after : Outcome} :
    whenReady name s after = .refused r ↔
      (r = name ∧ s.life = .uninit) ∨ (s.life = .ready ∧ after = .refused r) := by
  cases h : s.life <;> simp [h, eq_comm]

/-- A transaction whose body completes is refused before INIT only. -/
@[simp] theorem whenReady_completes_refused {name r : Refusal} {s t : State} :
    whenReady name s (.next t) = .refused r ↔ r = name ∧ s.life = .uninit := by
  simp [whenReady_refused]

@[simp] theorem shiftKey_refused {release : Bool} {s : State} {r : Refusal} :
    shiftKey release s = .refused r ↔ r = .decodeBeforeInit ∧ s.life = .uninit := whenReady_completes_refused

/-- A make byte that reaches LOOKUP is also refused over a ROM that is not one of this block (U13). -/
@[simp] theorem makeKey_refused {code : Code} {s : State} {r : Refusal} :
    makeKey code s = .refused r ↔
      (r = .decodeBeforeInit ∧ s.life = .uninit) ∨
      (r = .illFormedRom ∧ s.life = .ready ∧ Rom.wf s.rom s.params = false) := by
  rw [makeKey, whenReady_refused]
  cases h : Rom.wf s.rom s.params <;> simp [eq_comm, and_comm]

@[simp] theorem execGetchar_refused {s : State} {r : Refusal} :
    execGetchar s = .refused r ↔ r = .getcharBeforeInit ∧ s.life = .uninit := whenReady_completes_refused

@[simp] theorem execInit_refused {s : State} {r : Refusal} :
    execInit s = .refused r ↔ r = .repeatedInit ∧ s.life = .ready := by
  cases h : s.life <;> simp [execInit, h, eq_comm]

/-! ## What a transaction and a step refuse -/

/-- The make bytes that reach LOOKUP (R155, R158, R160). -/
abbrev reachesLookup (i : Instr) : Prop := i = .capsMk ∨ i = .numMk ∨ ∃ code, i = .keyMk code

/-- Everything a transaction can be refused for. -/
theorem exec_refused {i : Instr} {s : State} {r : Refusal} :
    exec i s = .refused r ↔
      (r = .decodeBeforeInit ∧ s.life = .uninit ∧ i.isDecode = true) ∨
      (r = .getcharBeforeInit ∧ s.life = .uninit ∧ i = .getchar) ∨
      (r = .repeatedInit ∧ s.life = .ready ∧ i = .init) ∨
      (r = .illFormedRom ∧ s.life = .ready ∧ Rom.wf s.rom s.params = false ∧ reachesLookup i) := by
  cases i with
  | extPrefix => simp [exec, execExtPrefix, Instr.isDecode]
  | shiftLMk => simp [exec, execShiftLMk, Instr.isDecode]
  | shiftRMk => simp [exec, execShiftRMk, Instr.isDecode]
  | shiftLBrk => simp [exec, execShiftLBrk, Instr.isDecode]
  | shiftRBrk => simp [exec, execShiftRBrk, Instr.isDecode]
  | capsBrk => simp [exec, execCapsBrk, Instr.isDecode]
  | numBrk => simp [exec, execNumBrk, Instr.isDecode]
  | capsMk => simp [exec, execCapsMk, Instr.isDecode, reachesLookup]
  | numMk => simp [exec, execNumMk, Instr.isDecode, reachesLookup]
  | keyBrk code => simp [exec, execKeyBrk, Instr.isDecode]
  | keyMk code => simp [exec, execKeyMk, Instr.isDecode, reachesLookup]
  | getchar => simp [exec, Instr.isDecode]
  | init => simp [exec, Instr.isDecode]

/-- A step is refused for its word or for the transaction the word spells; an idle step never is. -/
theorem step_refused {s : State} {r : Refusal} :
    step s = .refused r ↔ ∃ d rest, s.schedule = d :: rest ∧
      ((∃ why, r = .noTransaction why ∧ decode d.word s.params = .reject why) ∨
       ∃ i, decode d.word s.params = .transaction i ∧
         exec i { s with schedule := rest, caller := d.agent } = .refused r) := by
  rcases takeNext_cases s with ⟨e, n⟩ | ⟨d, rest, e, n⟩
  · simp [step, n, idle, e]
  · cases hd : decode d.word s.params <;> simp [step, n, e, hd, eq_comm]

/-- No outcome is a fault: the block has none (R200). -/
theorem outcome_next_or_refused (o : Outcome) : (∃ t, o = .next t) ∨ ∃ r, o = .refused r := by
  cases o with
  | next t => exact .inl ⟨t, rfl⟩
  | fault f => cases f
  | refused r => exact .inr ⟨r, rfl⟩

/-- Everything the transaction a word spells can be refused for, in terms of the word. -/
theorem spelt_exec_refused {w : TWord} {P : Config.Params} {s : State} {r : Refusal} :
    (∃ i, decode w P = .transaction i ∧ exec i s = .refused r) ↔
      (r = .decodeBeforeInit ∧ s.life = .uninit ∧ opOf w = 0b00) ∨
      (r = .getcharBeforeInit ∧ s.life = .uninit ∧ w = 0x100) ∨
      (r = .repeatedInit ∧ s.life = .ready ∧ w = 0x200) ∨
      (r = .illFormedRom ∧ s.life = .ready ∧ Rom.wf s.rom s.params = false ∧
        ∃ i, decode w P = .transaction i ∧ reachesLookup i) := by
  rw [← spells_decode_iff (P := P), ← decode_eq_getchar_iff (P := P), ← decode_eq_init_iff (P := P)]
  simp only [exec_refused]
  constructor
  · rintro ⟨i, hi, ⟨hr, hl, dec⟩ | ⟨hr, hl, rfl⟩ | ⟨hr, hl, rfl⟩ | ⟨hr, hl, rom, look⟩⟩
    · exact .inl ⟨hr, hl, i, hi, dec⟩
    · exact .inr (.inl ⟨hr, hl, hi⟩)
    · exact .inr (.inr (.inl ⟨hr, hl, hi⟩))
    · exact .inr (.inr (.inr ⟨hr, hl, rom, i, hi, look⟩))
  · rintro (⟨hr, hl, i, hi, dec⟩ | ⟨hr, hl, hi⟩ | ⟨hr, hl, hi⟩ | ⟨hr, hl, rom, i, hi, look⟩)
    · exact ⟨i, hi, .inl ⟨hr, hl, dec⟩⟩
    · exact ⟨_, hi, .inr (.inl ⟨hr, hl, rfl⟩)⟩
    · exact ⟨_, hi, .inr (.inr (.inl ⟨hr, hl, rfl⟩))⟩
    · exact ⟨i, hi, .inr (.inr (.inr ⟨hr, hl, rom, look⟩))⟩

/-- Settles O35: a step's refusal is its word's or its transaction's, and each transaction's is read off the word. -/
theorem stepsEndInNextOrANamedRefusal : Obligations.StepsEndInNextOrANamedRefusal := by
  unfold Obligations.StepsEndInNextOrANamedRefusal
  refine ⟨fun s r => ?_, fun s => outcome_next_or_refused (step s)⟩
  simp only [step_refused, spelt_exec_refused]

end Sys2Proof.Machine

/-!
SUPPORT. What a transaction that completes leaves in each element of the state, said once for all rows (10_state.md R33),
and from it the writers of each element and the invariant of every step; then that nothing reads MOD.num, and the width of
an index.
-/
namespace Sys2Proof.Machine

/-! ## Everything a transaction can do -/

/-- MOD after a transaction that completes (R152 to R160, R181). -/
def modAfter (i : Instr) (m : ModReg) : ModReg :=
  match i with
  | .extPrefix => { m with ext := true }
  | .shiftLMk | .shiftRMk => { m with shift := true, ext := false }
  | .shiftLBrk | .shiftRBrk => { m with shift := false, ext := false }
  | .capsBrk => { m with caps := !m.caps, ext := false }
  | .numBrk => { m with num := !m.num, ext := false }
  | .capsMk | .numMk | .keyBrk _ | .keyMk _ => { m with ext := false }
  | .getchar => m
  | .init => ⟨false, false, false, false⟩

/-- The FIFO after a transaction that completes: a KEY make's PUSH, GETCHAR's POP and INIT's pointer reset. -/
def fifoAfter (i : Instr) (s : State) : Fifo :=
  match i with
  | .keyMk code => (s.emit (s.emitted code)).fifo
  | .getchar => (s.fifo.pop s.params.capacity).2
  | .init => s.fifo.created
  | _ => s.fifo

/-- `LIFE` after a transaction that completes (R181). -/
def lifeAfter (i : Instr) (s : State) : Life := if i = .init then .ready else s.life

/-- The results after a transaction that completes (R185). -/
def resultsAfter (i : Instr) (s : State) : List Response :=
  if i = .getchar then s.results ++ [⟨s.caller, (s.fifo.pop s.params.capacity).1⟩] else s.results

/-- The state after a transaction that completes. -/
def stateAfter (i : Instr) (s : State) : State :=
  { s with mod := modAfter i s.mod, fifo := fifoAfter i s, life := lifeAfter i s, results := resultsAfter i s }

/-- When a transaction completes: INIT before INIT, any other after it (R182, R184), and a make byte over a ROM of this
block only (U13). -/
abbrev admits (s : State) (i : Instr) : Prop :=
  (s.life = .ready ↔ i ≠ .init) ∧ (reachesLookup i → Rom.wf s.rom s.params = true)

/-- Over a ROM of this block the make of CAPS has nothing to push (R129, R155). -/
theorem emitted_caps {s : State} (h : Rom.wf s.rom s.params = true) : s.emitted s.params.caps = none :=
  emission_silent (wf_positioned h) (wf_silentAt_caps h) _ _

/-- Over a ROM of this block the make of NUM has nothing to push (R129, R158). -/
theorem emitted_num {s : State} (h : Rom.wf s.rom s.params = true) : s.emitted s.params.num = none :=
  emission_silent (wf_positioned h) (wf_silentAt_num h) _ _

/-- An emission touches the FIFO alone. -/
theorem emit_eq (s : State) (ch : Option Byte) : s.emit ch = { s with fifo := (s.emit ch).fifo } := by
  cases ch <;> rfl

theorem isDecode_or_getchar_or_init (i : Instr) : i.isDecode = true ∨ i = .getchar ∨ i = .init := by
  cases i <;> simp [Instr.isDecode]

theorem exec_of_admits {i : Instr} {s : State} (h : admits s i) : exec i s = .next (stateAfter i s) := by
  obtain ⟨ready, rom⟩ := h
  cases i with
  | extPrefix | capsBrk | numBrk | keyBrk => exact whenReady_next.mpr ⟨ready.mpr nofun, rfl⟩
  | shiftLMk | shiftRMk | shiftLBrk | shiftRBrk => exact shiftKey_next.mpr ⟨ready.mpr nofun, rfl⟩
  | capsMk =>
    have wf := rom (.inl rfl)
    exact makeKey_next.mpr ⟨ready.mpr nofun, wf, by rw [emitted_caps wf]; rfl⟩
  | numMk =>
    have wf := rom (.inr (.inl rfl))
    exact makeKey_next.mpr ⟨ready.mpr nofun, wf, by rw [emitted_num wf]; rfl⟩
  | keyMk code =>
    exact makeKey_next.mpr ⟨ready.mpr nofun, rom (.inr (.inr ⟨code, rfl⟩)), by rw [emit_eq]; rfl⟩
  | getchar => exact getchar_next.mpr ⟨ready.mpr nofun, rfl⟩
  | init =>
    have uninit : s.life = .uninit := by cases h : s.life <;> simp [h] at ready ⊢
    exact init_next.mpr ⟨uninit, rfl⟩

theorem admits_of_next {i : Instr} {s t : State} (h : exec i s = .next t) : admits s i := by
  have never : ∀ r, exec i s ≠ .refused r := by simp [h]
  cases life : s.life with
  | ready =>
    refine ⟨⟨fun _ e => ?_, fun _ => life⟩, fun look => ?_⟩
    · exact never _ (exec_refused.mpr (.inr (.inr (.inl ⟨rfl, life, e⟩))))
    · by_contra wf
      exact never _ (exec_refused.mpr (.inr (.inr (.inr ⟨rfl, life, by simpa using wf, look⟩))))
  | uninit =>
    rcases isDecode_or_getchar_or_init i with dec | e | rfl
    · exact absurd (exec_refused.mpr (.inl ⟨rfl, life, dec⟩)) (never _)
    · exact absurd (exec_refused.mpr (.inr (.inl ⟨rfl, life, e⟩))) (never _)
    · simp [admits, reachesLookup, life]

/-- Everything a transaction can do, if it answers a next state. -/
theorem exec_next {i : Instr} {s t : State} : exec i s = .next t ↔ admits s i ∧ stateAfter i s = t := by
  constructor
  · intro h
    have admitted := admits_of_next h
    exact ⟨admitted, by simpa [exec_of_admits admitted] using h⟩
  · rintro ⟨admitted, rfl⟩
    exact exec_of_admits admitted

/-! ## Who writes which element (R33) -/

section
variable {i : Instr} {s : State} {m : ModReg}

theorem modAfter_shift_ne (h : (modAfter i m).shift ≠ m.shift) :
    i = .shiftLMk ∨ i = .shiftRMk ∨ i = .shiftLBrk ∨ i = .shiftRBrk ∨ i = .init := by
  cases i <;> simp [modAfter] at h ⊢

theorem modAfter_caps_ne (h : (modAfter i m).caps ≠ m.caps) : i = .capsBrk ∨ i = .init := by
  cases i <;> simp [modAfter] at h ⊢

theorem modAfter_num_ne (h : (modAfter i m).num ≠ m.num) : i = .numBrk ∨ i = .init := by
  cases i <;> simp [modAfter] at h ⊢

theorem modAfter_ext_ne (h : (modAfter i m).ext ≠ m.ext) : i.isDecode = true ∨ i = .init := by
  cases i <;> simp [modAfter, Instr.isDecode] at h ⊢

/-- Everything a transaction can do to the FIFO. -/
theorem fifoAfter_cases (i : Instr) (s : State) :
    fifoAfter i s = s.fifo ∨
    (∃ code c, i = .keyMk code ∧ fifoAfter i s = (s.fifo.push s.params.capacity c).2) ∨
    (i = .getchar ∧ fifoAfter i s = (s.fifo.pop s.params.capacity).2) ∨
    (i = .init ∧ fifoAfter i s = s.fifo.created) := by
  cases i with
  | keyMk code =>
    cases e : s.emitted code with
    | none => exact .inl (by simp [fifoAfter, e])
    | some c => exact .inr (.inl ⟨code, c, rfl, by simp [fifoAfter, e]⟩)
  | getchar => exact .inr (.inr (.inl ⟨rfl, rfl⟩))
  | init => exact .inr (.inr (.inr ⟨rfl, rfl⟩))
  | extPrefix | shiftLMk | shiftRMk | shiftLBrk | shiftRBrk => exact .inl rfl
  | capsBrk | numBrk | capsMk | numMk | keyBrk => exact .inl rfl

theorem fifoAfter_store_ne (h : (fifoAfter i s).store ≠ s.fifo.store) : ∃ code, i = .keyMk code := by
  rcases fifoAfter_cases i s with e | ⟨code, c, rfl, e⟩ | ⟨rfl, e⟩ | ⟨rfl, e⟩ <;> simp [e] at h ⊢

theorem fifoAfter_head_ne (h : (fifoAfter i s).head ≠ s.fifo.head) : (∃ code, i = .keyMk code) ∨ i = .init := by
  rcases fifoAfter_cases i s with e | ⟨code, c, rfl, e⟩ | ⟨rfl, e⟩ | ⟨rfl, e⟩ <;> simp [e] at h ⊢

theorem fifoAfter_tail_ne (h : (fifoAfter i s).tail ≠ s.fifo.tail) : i = .getchar ∨ i = .init := by
  rcases fifoAfter_cases i s with e | ⟨code, c, rfl, e⟩ | ⟨rfl, e⟩ | ⟨rfl, e⟩ <;> simp [e] at h ⊢

theorem fifoAfter_count_ne (h : (fifoAfter i s).count ≠ s.fifo.count) :
    (∃ code, i = .keyMk code) ∨ i = .getchar ∨ i = .init := by
  rcases fifoAfter_cases i s with e | ⟨code, c, rfl, e⟩ | ⟨rfl, e⟩ | ⟨rfl, e⟩ <;> simp [e] at h ⊢

theorem lifeAfter_ne (h : lifeAfter i s ≠ s.life) : i = .init := by
  by_contra e; exact h (if_neg e)

theorem resultsAfter_ne (h : resultsAfter i s ≠ s.results) : i = .getchar := by
  by_contra e; exact h (if_neg e)

end

/-- Settles O36: the next state is `stateAfter`, and each of its elements has these writers. -/
theorem eachElementHasItsWriters : Obligations.EachElementHasItsWriters := by
  unfold Obligations.EachElementHasItsWriters
  intro i s t h
  obtain ⟨-, rfl⟩ := exec_next.mp h
  exact ⟨rfl, rfl, rfl, rfl, lifeAfter_ne, modAfter_shift_ne, modAfter_caps_ne, modAfter_num_ne, modAfter_ext_ne,
    fifoAfter_store_ne, fifoAfter_head_ne, fifoAfter_tail_ne, fifoAfter_count_ne, resultsAfter_ne⟩

/-! ## The invariant -/

section
variable {cap : Nat} {f : Fifo}

/-- INIT's pointers agree, whatever they were (R35). -/
theorem created_linked (h : 0 < cap) (f : Fifo) : f.created.linked cap := by
  simp [Fifo.linked, Fifo.inRange, h]

/-- PUSH keeps the pointers in agreement: the one new slot is `head`, which it writes. -/
theorem push_keeps_linked (h : f.linked cap) (c : Byte) : (f.push cap c).2.linked cap := by
  refine ⟨push_keeps_inRange h.1 c, ?_⟩
  obtain ⟨-, agree, written⟩ := h
  rcases push_cases (cap := cap) f c with ⟨-, e⟩ | ⟨-, -, store, head, tail, count⟩
  · simpa only [e] using ⟨agree, written⟩
  · refine ⟨by rw [head, tail, count, agree, nextIndex, Nat.mod_add_mod, Nat.add_assoc], fun k hk => ?_⟩
    rw [store, written?_write, Fifo.slot, tail]
    split
    · rfl
    · rename_i old
      have older : k ≠ f.count := by rintro rfl; exact old agree.symm
      exact written k (by omega)

/-- POP keeps the pointers in agreement: the slots that stay queued are the old ones from the second on. -/
theorem pop_keeps_linked (h : f.linked cap) : (f.pop cap).2.linked cap := by
  refine ⟨pop_keeps_inRange h.1, ?_⟩
  obtain ⟨-, agree, written⟩ := h
  rcases pop_cases (cap := cap) f with ⟨-, e⟩ | ⟨some, -, store, head, tail, count⟩
  · simpa only [e] using ⟨agree, written⟩
  · refine ⟨?_, fun k hk => ?_⟩
    · rw [head, tail, count, agree, nextIndex, Nat.mod_add_mod]
      congr 1; omega
    · rw [store, slot_next tail]
      exact written (k + 1) (by omega)

end

/-- A transaction of a READY block keeps its FIFO linked and its STORE inside its slots. -/
theorem fifoAfter_keeps {i : Instr} {s : State} (ne : i ≠ .init) (linked : s.fifo.linked s.params.capacity)
    (store : s.fifo.storeWf s.params.capacity) :
    (fifoAfter i s).storeWf s.params.capacity ∧ (fifoAfter i s).linked s.params.capacity := by
  rcases fifoAfter_cases i s with e | ⟨code, c, -, e⟩ | ⟨-, e⟩ | ⟨init, -⟩
  · rw [e]; exact ⟨store, linked⟩
  · rw [e]; exact ⟨push_keeps_storeWf linked.1.1 c store, push_keeps_linked linked c⟩
  · rw [e]; exact ⟨by rw [Fifo.storeWf, pop_store]; exact store, pop_keeps_linked linked⟩
  · exact absurd init ne

theorem exec_keeps_inv {i : Instr} {s t : State} (inv : s.Inv) (h : exec i s = .next t) : t.Inv := by
  obtain ⟨⟨ready, -⟩, rfl⟩ := exec_next.mp h
  obtain ⟨cap, rom, store, linked⟩ := inv
  by_cases init : i = .init
  · subst init
    exact ⟨cap, rom, store, fun _ => created_linked cap _⟩
  · obtain ⟨store', linked'⟩ := fifoAfter_keeps init (linked (ready.mpr init)) store
    exact ⟨cap, rom, store', fun _ => linked'⟩

/-- Settles O42: a step is idle or performs a transaction, which keeps the invariant; the schedule is no part of it. -/
theorem everyStepKeepsTheInvariant : Obligations.EveryStepKeepsTheInvariant := by
  unfold Obligations.EveryStepKeepsTheInvariant
  intro s t inv h
  rcases step_next h with ⟨-, rfl⟩ | ⟨d, rest, i, -, -, performed⟩
  · exact inv
  · exact exec_keeps_inv (s := { s with schedule := rest, caller := d.agent }) inv performed

/-- Settles O41: nothing is written yet and the block is not READY, so the invariant asks only for what is given. -/
theorem powerOnMeetsTheInvariant : Obligations.PowerOnMeetsTheInvariant := by
  unfold Obligations.PowerOnMeetsTheInvariant
  have powerOn : ∀ (P : Config.Params) (rom : Rom), 1 ≤ P.capacity → Rom.wf rom P = true → (State.powerOn P rom).Inv :=
    fun P rom cap wf => ⟨cap, wf, ⟨List.Pairwise.nil, nofun⟩, nofun⟩
  exact ⟨powerOn, powerOn Config.hw referenceFill (by decide) (by decide)⟩

/-! ## MOD.num is read by nothing (R26) -/

theorem emit_setNum (s : State) (v : Bool) (ch : Option Byte) : (s.setNum v).emit ch = (s.emit ch).setNum v := by
  cases ch <;> rfl

/-- Waiting for INIT reads no `num`, and passes on what happens to the body. -/
theorem whenReady_setNum {g : State → State} {name : Refusal} {s : State} {v : Bool} {body body' : Outcome}
    (h : body' = mapNext g body) : whenReady name (s.setNum v) body' = mapNext g (whenReady name s body) := by
  cases life : s.life <;> simp [life, h, mapNext]

/-- A make reads no `num`: its character depends on `shift` and `caps` alone. -/
theorem makeKey_setNum (code : Code) (s : State) (v : Bool) :
    makeKey code (s.setNum v) = mapNext (·.setNum v) (makeKey code s) := by
  have emitted : (s.setNum v).emitted code = s.emitted code := rfl
  refine whenReady_setNum ?_
  rw [apply_ite (mapNext _), emitted, emit_setNum]
  rfl

/-- Settles O28: a row either writes `num` or passes it on, and no row's condition or character reads it. -/
theorem numLockInfluencesNothingElse : Obligations.NumLockInfluencesNothingElse := by
  unfold Obligations.NumLockInfluencesNothingElse
  intro s i v
  cases i with
  | extPrefix | shiftLMk | shiftRMk | shiftLBrk | shiftRBrk => exact whenReady_setNum rfl
  | capsBrk | numBrk | keyBrk | getchar => exact whenReady_setNum rfl
  | capsMk | numMk | keyMk => exact makeKey_setNum _ s v
  | init =>
    cases life : s.life with
    | ready => simp [exec, execInit, life, mapNext]
    | uninit => simp [exec, execInit, life, mapNext]; rfl

end Sys2Proof.Machine

namespace Sys2Proof.Config

/-! ## The width of an index (R30) -/

/-- `indexWidth n` bits hold `n`, and no fewer do. -/
theorem lt_two_pow_iff {n w : Nat} : n < 2 ^ w ↔ indexWidth n ≤ w := by
  unfold indexWidth
  split
  · rename_i zero; simp [zero]
  · rename_i pos; rw [← Nat.log2_lt pos, Nat.lt_iff_add_one_le]

theorem lt_two_pow_indexWidth {n i : Nat} (h : i ≤ n) : i < 2 ^ indexWidth n :=
  Nat.lt_of_le_of_lt h (lt_two_pow_iff.mpr le_rfl)

/-- A value up to the largest is read back from its bits. -/
theorem toNat_ofNat_indexWidth {n i : Nat} (h : i ≤ n) : (BitVec.ofNat (indexWidth n) i).toNat = i := by
  rw [BitVec.toNat_ofNat, Nat.mod_eq_of_lt (lt_two_pow_indexWidth h)]

end Sys2Proof.Config

namespace Sys2Proof.Machine

/-- Settles O51: `indexWidth n` is the least width that holds `n`, so bits of that width lose no pointer in range. -/
theorem indicesFitTheirBits : Obligations.IndicesFitTheirBits := by
  unfold Obligations.IndicesFitTheirBits
  refine ⟨fun n => ⟨fun i => Config.lt_two_pow_indexWidth, fun w => Config.lt_two_pow_iff.mp⟩, by decide, by decide,
    fun cap f ⟨head, tail, count⟩ => ⟨?_, ?_, Config.toNat_ofNat_indexWidth count⟩⟩
  · exact Config.toNat_ofNat_indexWidth (by omega)
  · exact Config.toNat_ofNat_indexWidth (by omega)

end Sys2Proof.Machine

/-!
SUPPORT. 20_memory.md: what a READY block's step does to its schedule, to the record of accepted characters and to MOD, and
the same over whole runs; then the canonical form of STORE.
-/
namespace Sys2Proof.Machine

/-! ## A step and the word it takes (R56) -/

theorem takeNext_cons {s : State} {d : Delivery} {rest : List Delivery} (h : s.schedule = d :: rest) :
    takeNext s = some (d.word, { s with schedule := rest, caller := d.agent }) := by simp [takeNext, h]

theorem step_transaction {s : State} {d : Delivery} {rest : List Delivery} {i : Instr} (h : s.schedule = d :: rest)
    (hd : decode d.word s.params = .transaction i) :
    step s = exec i { s with schedule := rest, caller := d.agent } := by simp [step, takeNext_cons h, hd]

theorem step_reject {s : State} {d : Delivery} {rest : List Delivery} {why : Reject} (h : s.schedule = d :: rest)
    (hd : decode d.word s.params = .reject why) : step s = .refused (.noTransaction why) := by
  simp [step, takeNext_cons h, hd]

theorem step_idle {s : State} (h : s.schedule = []) : step s = .next s := by simp [step, takeNext, idle, h]

/-- Settles O1: `step` decodes the word `takeNext` gives, and `takeNext` gives the first one. -/
theorem stepPerformsTheDeliveredTransaction : Obligations.StepPerformsTheDeliveredTransaction :=
  ⟨fun _ _ _ _ => step_transaction, fun _ _ _ _ => step_reject, fun _ => step_idle⟩

/-- Everything a step of a READY block can do: an INIT is refused there, so the transaction performed is another one. -/
theorem step_ready_next {s t : State} (ready : s.life = .ready) (h : step s = .next t) :
    (s.schedule = [] ∧ t = s) ∨
    ∃ d rest i, s.schedule = d :: rest ∧ decode d.word s.params = .transaction i ∧ i ≠ .init ∧
      t = stateAfter i { s with schedule := rest, caller := d.agent } := by
  rcases step_next h with idle | ⟨d, rest, i, e, hd, performed⟩
  · exact .inl idle
  · obtain ⟨⟨notInit, -⟩, rfl⟩ := exec_next.mp performed
    exact .inr ⟨d, rest, i, e, hd, notInit.mp ready, rfl⟩

theorem stateAfter_ready {i : Instr} {s : State} (ready : s.life = .ready) : (stateAfter i s).life = .ready := by
  simp [stateAfter, lifeAfter, ready]

theorem step_keeps_ready {s t : State} (ready : s.life = .ready) (h : step s = .next t) : t.life = .ready := by
  rcases step_ready_next ready h with ⟨-, rfl⟩ | ⟨d, rest, i, -, -, -, rfl⟩
  · exact ready
  · exact stateAfter_ready ready

/-! ## Runs -/

theorem runsTo_zero {s t : State} : runsTo 0 s t ↔ s = t := iff_of_eq (Host.Outcome.next.injEq s t)

/-- A run of `n + 1` steps of any machine is a step and a run of `n`. -/
theorem run_succ_next (M : Host.Core) (n : Nat) (s t : M.State) :
    M.run (n + 1) s = .next t ↔ ∃ u, M.step s = .next u ∧ M.run n u = .next t := by
  rw [Host.Core.run]
  cases M.step s <;> simp

theorem runsTo_succ {n : Nat} {s t : State} : runsTo (n + 1) s t ↔ ∃ u, step s = .next u ∧ runsTo n u t :=
  run_succ_next core n s t

/-! ## The record of accepted characters (R61) -/

section
variable {cap : Nat} {f : Fifo}

/-- A PUSH with room appends to the content (40_ring_buffer.md R102): the old slots keep their bytes, since the slot
written is the one after them. -/
theorem push_contents (h : f.linked cap) (room : f.count ≠ cap) (c : Byte) :
    (f.push cap c).2.contents cap = f.contents cap ++ [c] := by
  obtain ⟨⟨-, tail, count⟩, agree, -⟩ := h
  have newest : f.slot cap f.count = f.head := agree.symm
  have older : ∀ k ∈ List.range f.count, f.slot cap k ≠ f.head := fun k hk e => by
    have lt := List.mem_range.mp hk
    have := slot_inj tail (by omega) (by omega) (e.trans newest.symm)
    omega
  rw [push_room c room]
  simp only [Fifo.contents, List.range_succ, List.map_append, List.map_singleton]
  congr 1
  · exact List.map_congr_left fun k hk => read_write_other _ c (older k hk)
  · exact congrArg (fun v => [v]) (newest ▸ read_write_same _ _ c)

/-- A POP takes the oldest byte, if there is one, off the content (R104). -/
theorem pop_contents (tail : f.tail < cap) :
    f.contents cap = (f.pop cap).1.toList ++ (f.pop cap).2.contents cap := by
  rcases pop_cases (cap := cap) f with ⟨-, e⟩ | ⟨nonempty, value, -, -, next, count⟩
  · simp [e]
  · have oldest : f.slot cap 0 = f.tail := Nat.mod_eq_of_lt tail
    obtain ⟨n, hn⟩ := Nat.exists_eq_add_one.mpr nonempty
    simp [Fifo.contents, value, count, slot_next next, hn, List.range_succ_eq_map, oldest, Function.comp_def]

end

/-- An emission appends its character to the content, unless the FIFO is full (42_decoder.md R162). -/
theorem emit_contents {s : State} (h : s.fifo.linked s.params.capacity) (ch : Option Byte) :
    (s.emit ch).fifo.contents s.params.capacity =
      s.fifo.contents s.params.capacity ++ if s.fifo.count = s.params.capacity then [] else ch.toList := by
  cases ch with
  | none => simp
  | some c =>
    rw [emit_some_fifo]
    split
    · rename_i full; simp [push_full c full]
    · rename_i room; exact push_contents h room c

section
variable {i : Instr} {s : State}

theorem acceptedBy_eq_nil (h : ∀ code, i ≠ .keyMk code) : acceptedBy i s = [] := by
  unfold acceptedBy
  split
  · rfl
  · cases i with
    | keyMk code => exact absurd rfl (h code)
    | _ => rfl

theorem returned_stateAfter_getchar :
    (stateAfter .getchar s).returned = s.returned ++ (s.fifo.pop s.params.capacity).1.toList := by
  cases h : (s.fifo.pop s.params.capacity).1 <;> simp [State.returned, stateAfter, resultsAfter, h]

theorem returned_stateAfter (h : i ≠ .getchar) : (stateAfter i s).returned = s.returned := by
  simp [State.returned, stateAfter, resultsAfter, h]

/-- What consumers have received stays received, in order. -/
theorem returned_prefix_stateAfter : s.returned <+: (stateAfter i s).returned := by
  by_cases h : i = .getchar
  · subst h
    rw [returned_stateAfter_getchar]
    exact List.prefix_append _ _
  · rw [returned_stateAfter h]

/-- No transaction but GETCHAR and INIT takes anything off the content; a make appends what it pushes. -/
theorem fifoAfter_contents (notGetchar : i ≠ .getchar) (notInit : i ≠ .init) (h : s.fifo.linked s.params.capacity) :
    (fifoAfter i s).contents s.params.capacity = s.fifo.contents s.params.capacity ++ acceptedBy i s := by
  cases i with
  | keyMk code => exact emit_contents h _
  | getchar => exact absurd rfl notGetchar
  | init => exact absurd rfl notInit
  | extPrefix | shiftLMk | shiftRMk | shiftLBrk | shiftRBrk | capsBrk | numBrk | capsMk | numMk | keyBrk =>
    simp [fifoAfter, acceptedBy_eq_nil]

theorem accepted_stateAfter_eq :
    (stateAfter i s).accepted = (stateAfter i s).returned ++ (fifoAfter i s).contents s.params.capacity := rfl

/-- A transaction of a READY block hands the oldest queued character to its caller or appends what it pushes. -/
theorem accepted_stateAfter (notInit : i ≠ .init) (h : s.fifo.linked s.params.capacity) :
    (stateAfter i s).accepted = s.accepted ++ acceptedBy i s := by
  rw [accepted_stateAfter_eq]
  by_cases e : i = .getchar
  · subst e
    have nothing : acceptedBy .getchar s = [] := acceptedBy_eq_nil nofun
    rw [returned_stateAfter_getchar, List.append_assoc, nothing, List.append_nil]
    obtain ⟨⟨-, tail, -⟩, -⟩ := h
    exact congrArg (s.returned ++ ·) (pop_contents tail).symm
  · rw [returned_stateAfter e, fifoAfter_contents e notInit h, ← List.append_assoc]
    rfl

end

/-- Settles O43: the transaction of a step is `stateAfter`, and neither the schedule nor the caller enters the record. -/
theorem eachStepAcceptsInOrder : Obligations.EachStepAcceptsInOrder := by
  unfold Obligations.EachStepAcceptsInOrder
  intro s t d rest i inv ready sched hd h
  obtain ⟨-, -, -, linked⟩ := inv
  rw [step_transaction sched hd] at h
  obtain ⟨⟨notInit, -⟩, rfl⟩ := exec_next.mp h
  exact accepted_stateAfter (s := { s with schedule := rest, caller := d.agent }) (notInit.mp ready) (linked ready)

/-- A step of a READY block takes back neither an accepted character nor a returned one. -/
theorem step_extends_record {s t : State} (inv : s.Inv) (ready : s.life = .ready) (h : step s = .next t) :
    s.accepted <+: t.accepted ∧ s.returned <+: t.returned := by
  rcases step_ready_next ready h with ⟨-, rfl⟩ | ⟨d, rest, i, sched, hd, -, rfl⟩
  · exact ⟨List.prefix_rfl, List.prefix_rfl⟩
  · refine ⟨?_, returned_prefix_stateAfter (s := { s with schedule := rest, caller := d.agent })⟩
    rw [eachStepAcceptsInOrder s _ d rest i inv ready sched hd h]
    exact List.prefix_append _ _

theorem run_extends_record {n : Nat} {s t : State} (inv : s.Inv) (ready : s.life = .ready) (h : runsTo n s t) :
    s.accepted <+: t.accepted ∧ s.returned <+: t.returned := by
  induction n generalizing s with
  | zero =>
    obtain rfl := runsTo_zero.mp h
    exact ⟨List.prefix_rfl, List.prefix_rfl⟩
  | succ n ih =>
    obtain ⟨u, first, others⟩ := runsTo_succ.mp h
    obtain ⟨accepted, returned⟩ := step_extends_record inv ready first
    obtain ⟨accepted', returned'⟩ :=
      ih (everyStepKeepsTheInvariant s u inv first) (step_keeps_ready ready first) others
    exact ⟨accepted.trans accepted', returned.trans returned'⟩

/-- Settles O44: each step extends the record, by induction on the steps; the returned characters are its first part. -/
theorem runsNeverReorderCharacters : Obligations.RunsNeverReorderCharacters := by
  unfold Obligations.RunsNeverReorderCharacters
  intro n s t inv ready h
  obtain ⟨accepted, returned⟩ := run_extends_record inv ready h
  exact ⟨accepted, returned, List.prefix_append _ _⟩

/-! ## Servable schedules (R57, R63) -/

/-- A servable word spells a transaction, and not INIT (43_driver_api.md R182, R184). -/
theorem servable_decode {w : TWord} (P : Config.Params) (h : servable w) :
    ∃ i, decode w P = .transaction i ∧ i ≠ .init := by
  rcases h with op | rfl
  · refine ⟨_, decode_of_opOf_zero P op, fun e => ?_⟩
    simpa [e, Instr.isDecode] using decodeOf_isDecode (dataOf w) P
  · exact ⟨.getchar, decode_eq_getchar_iff.mpr rfl, nofun⟩

/-- A READY block over a ROM of its own completes a servable word. -/
theorem step_servable {s : State} {d : Delivery} {rest : List Delivery} (ready : s.life = .ready)
    (rom : Rom.wf s.rom s.params = true) (sched : s.schedule = d :: rest) (h : servable d.word) :
    ∃ i, step s = .next (stateAfter i { s with schedule := rest, caller := d.agent }) := by
  obtain ⟨i, hd, notInit⟩ := servable_decode s.params h
  refine ⟨i, ?_⟩
  rw [step_transaction sched hd]
  exact exec_of_admits ⟨iff_of_true ready notInit, fun _ => rom⟩

/-- Settles O39: by induction on the schedule, each of whose words completes and leaves the block READY and its ROM. -/
theorem everyServableScheduleCompletes : Obligations.EveryServableScheduleCompletes := by
  unfold Obligations.EveryServableScheduleCompletes
  intro s ready rom servables
  induction sched : s.schedule generalizing s with
  | nil => exact ⟨s, runsTo_zero.mpr rfl, sched, ready, rfl⟩
  | cons d rest ih =>
    rw [sched] at servables
    obtain ⟨i, first⟩ := step_servable ready rom sched (servables d List.mem_cons_self)
    obtain ⟨t, others, done⟩ :=
      ih (stateAfter i { s with schedule := rest, caller := d.agent }) (stateAfter_ready ready) rom
        (fun d' hd' => servables d' (List.mem_cons_of_mem d hd')) rfl
    exact ⟨t, runsTo_succ.mpr ⟨_, first, others⟩, done⟩

/-- MOD after DECODEs of these words in order: the words and how the parameters class their bytes decide it. -/
def modAfterWords (P : Config.Params) (ws : List TWord) (m : ModReg) : ModReg :=
  ws.foldl (fun m w => modAfter (decodeOf (dataOf w) P) m) m

/-- Neither the capacity nor the ROM depth nor the letter ranges bear on MOD: the class of a byte reads none of them. -/
theorem modAfterWords_congr {P P' : Config.Params}
    (h : P' = { P with capacity := P'.capacity, romDepth := P'.romDepth, letterRanges := P'.letterRanges }) :
    modAfterWords P' = modAfterWords P := by
  rw [h]
  rfl

/-- What a word other than INIT does to MOD is what it adds to the DECODE words: itself, or nothing if it is GETCHAR. -/
theorem modAfterWords_decodesOf_cons {d : Delivery} {P : Config.Params} {i : Instr} (rest : List Delivery) (m : ModReg)
    (hd : decode d.word P = .transaction i) (notInit : i ≠ .init) :
    modAfterWords P (decodesOf (d :: rest)) m = modAfterWords P (decodesOf rest) (modAfter i m) := by
  rcases decode_transaction_cases hd with ⟨op, -⟩ | ⟨word, rfl⟩ | ⟨-, init⟩
  · obtain rfl : decodeOf (dataOf d.word) P = i := by simpa [decode_of_opOf_zero P op] using hd
    simp [decodesOf, op, modAfterWords]
  · have op : opOf d.word = 0b01 := (word_eq_getchar_iff.mp word).1
    simp [decodesOf, op, modAfter]
  · exact absurd init notInit

/-- A READY block that has performed its whole schedule has MOD as the DECODE words alone make it. -/
theorem mod_of_run {s t : State} (ready : s.life = .ready) (h : runsTo s.schedule.length s t) :
    t.mod = modAfterWords s.params (decodesOf s.schedule) s.mod := by
  induction sched : s.schedule generalizing s with
  | nil =>
    rw [sched] at h
    obtain rfl := runsTo_zero.mp h
    rfl
  | cons d rest ih =>
    rw [sched] at h
    obtain ⟨u, first, others⟩ := runsTo_succ.mp h
    rcases step_ready_next ready first with ⟨nothing, -⟩ | ⟨d', rest', i, e, hd, notInit, rfl⟩
    · simp [sched] at nothing
    · obtain ⟨rfl, rfl⟩ : d = d' ∧ rest = rest' := by simpa [sched] using e
      rw [modAfterWords_decodesOf_cons rest s.mod hd notInit]
      exact ih (s := stateAfter i { s with schedule := rest, caller := d.agent }) (stateAfter_ready ready) others rfl

/-- Settles O40: both runs end with the MOD that the same DECODE words make of the same MOD. -/
theorem consumersCannotInfluenceMod : Obligations.ConsumersCannotInfluenceMod := by
  unfold Obligations.ConsumersCannotInfluenceMod
  intro s s' t t' ready ready' params _ _ mod _ _ decodes run run'
  rw [mod_of_run ready run, mod_of_run ready' run', ← decodes, ← mod, modAfterWords_congr params]

/-! ## The canonical form of STORE (R50) -/

/-- No address below all the listed ones is written. -/
theorem written?_eq_none {m : Memory} {a : Nat} (h : ∀ c ∈ m, a < c.1) : Memory.written? m a = none := by
  induction m with
  | nil => rfl
  | cons c m ih =>
    obtain ⟨head, tail⟩ := List.forall_mem_cons.mp h
    rw [Memory.written?, if_neg head.ne, ih tail]

/-- In canonical form the list holds exactly the written bytes. -/
theorem mem_iff_written? {m : Memory} (h : Memory.wf m) {a : Nat} {v : Byte} :
    (a, v) ∈ m ↔ Memory.written? m a = some v := by
  induction m with
  | nil => simp [Memory.written?]
  | cons c m ih =>
    obtain ⟨b, u⟩ := c
    obtain ⟨above, wf⟩ := List.pairwise_cons.mp h
    rw [List.mem_cons, ih wf, Memory.written?]
    split
    · rename_i same
      subst same
      simp [written?_eq_none above, eq_comm]
    · rename_i other
      simp [other]

/-- Settles O52: the two lists hold the same written bytes, and rising addresses leave one order for them. -/
theorem canonicalStoresWithEqualBytesAreEqual : Obligations.CanonicalStoresWithEqualBytesAreEqual := by
  unfold Obligations.CanonicalStoresWithEqualBytesAreEqual
  intro m m' wf wf' same
  refine List.Pairwise.eq_of_mem_iff (r := InvImage (· < ·) Prod.fst) wf wf' fun ⟨a, v⟩ => ?_
  rw [mem_iff_written? wf, mem_iff_written? wf', same]

end Sys2Proof.Machine

/-!
SUPPORT. 30_encoding.md: the class of a byte from its two fields (R77, R78), the words of the transactions (R70 to R74), a
word placed to be performed next, and the layouts of a result, of a ROM word and of MOD (R76, R81, R23).
-/
namespace Sys2Proof

/-! ## The row of a byte (R77, R78) -/

section
variable {P : Config.Params} {b : Byte}

theorem byteClass_extByte (P : Config.Params) : byteClass P.extByte P = .extPrefix := if_pos rfl

/-- The class of a make byte, the rows of R78 with the release bit 0. -/
theorem byteClass_make (notPrefix : b ≠ P.extByte) (make : isRelease b P = false) :
    byteClass b P =
      if baseCode b P = P.shiftL ∨ baseCode b P = P.shiftR then .shiftMk
      else if baseCode b P = P.caps then .capsMk
      else if baseCode b P = P.num then .numMk
      else .keyMk := by
  simp [byteClass, notPrefix, make, isShiftKey, isCapsLockKey, isNumLockKey]

/-- The class of a break byte, the rows of R78 with the release bit 1. -/
theorem byteClass_break (notPrefix : b ≠ P.extByte) (brk : isRelease b P = true) :
    byteClass b P =
      if baseCode b P = P.shiftL ∨ baseCode b P = P.shiftR then .shiftBrk
      else if baseCode b P = P.caps then .capsBrk
      else if baseCode b P = P.num then .numBrk
      else .keyBrk := by
  simp only [byteClass, notPrefix, brk, isShiftKey, isCapsLockKey, isNumLockKey]
  split_ifs <;> simp_all

/-- The transaction that a byte other than PREFIX is, by its release bit and base code: R78's conditions read no more of
it. -/
def rowOfFields (release : Bool) (code : Code) (P : Config.Params) : Instr :=
  if code = P.shiftL then (bif release then .shiftLBrk else .shiftLMk)
  else if code = P.shiftR then (bif release then .shiftRBrk else .shiftRMk)
  else if code = P.caps then (bif release then .capsBrk else .capsMk)
  else if code = P.num then (bif release then .numBrk else .numMk)
  else (bif release then .keyBrk code else .keyMk code)

theorem decodeOf_extByte (P : Config.Params) : decodeOf P.extByte P = .extPrefix := by
  rw [decodeOf, byteClass_extByte]; rfl

theorem decodeOf_eq_rowOfFields (notPrefix : b ≠ P.extByte) :
    decodeOf b P = rowOfFields (isRelease b P) (baseCode b P) P := by
  unfold decodeOf rowOfFields
  cases release : isRelease b P with
  | false => rw [byteClass_make notPrefix release]; split_ifs <;> simp_all [ByteClass.row]
  | true => rw [byteClass_break notPrefix release]; split_ifs <;> simp_all [ByteClass.row]

end

/-! ## A byte that can be spelt, its row and its word -/

section
variable {P : Config.Params} {release : Bool} {code : Code}

theorem decode_wordOf_decode (P : Config.Params) (b : Byte) :
    decode (wordOf 0b00 b) P = .transaction (decodeOf b P) := by
  rw [decode_of_opOf_zero P (opOf_wordOf _ b), dataOf_wordOf]

/-- The word of a byte that is read back as its fields spells the row of those fields. -/
theorem decode_byteOf (h : P.spells release code = true) :
    decode (wordOf 0b00 (byteOf release code P)) P = .transaction (rowOfFields release code P) := by
  obtain ⟨readRelease, readCode, notPrefix⟩ := spells_iff.mp h
  rw [decode_wordOf_decode, decodeOf_eq_rowOfFields notPrefix, readRelease, readCode]

/-- The encoder writes back the fields a row was read from. -/
theorem encode_rowOfFields (release : Bool) (code : Code) (P : Config.Params) :
    encode (rowOfFields release code P) P = wordOf 0b00 (byteOf release code P) := by
  unfold rowOfFields
  split_ifs with left right caps num
  · rw [left]; cases release <;> rfl
  · rw [right]; cases release <;> rfl
  · rw [caps]; cases release <;> rfl
  · rw [num]; cases release <;> rfl
  · cases release <;> rfl

theorem not_mem_positions_iff :
    code ∉ P.positions ↔ code ≠ P.shiftL ∧ code ≠ P.shiftR ∧ code ≠ P.caps ∧ code ≠ P.num := by
  simp [Config.Params.positions]

theorem keyBrk_wf_iff : (Instr.keyBrk code).wf P = true ↔ code ∉ P.positions ∧ P.spells true code = true := by
  simp [Instr.wf]

theorem keyMk_wf_iff : (Instr.keyMk code).wf P = true ↔ code ∉ P.positions ∧ P.spells false code = true := by
  simp [Instr.wf]

/-- A code of none of the four positions is a key of its own. -/
theorem rowOfFields_key (h : code ∉ P.positions) :
    rowOfFields release code P = bif release then .keyBrk code else .keyMk code := by
  obtain ⟨left, right, caps, num⟩ := not_mem_positions_iff.mp h
  simp [rowOfFields, left, right, caps, num]

/-- The row of a byte that can be spelt is a well-formed transaction. -/
theorem rowOfFields_wf (h : P.spells release code = true) : (rowOfFields release code P).wf P = true := by
  unfold rowOfFields
  split_ifs with left right caps num
  iterate 4 cases release <;> rfl
  have other : code ∉ P.positions := not_mem_positions_iff.mpr ⟨left, right, caps, num⟩
  cases release with
  | false => exact keyMk_wf_iff.mpr ⟨other, h⟩
  | true => exact keyBrk_wf_iff.mpr ⟨other, h⟩

end

/-! ## Encode, then decode (R74) -/

/-- Well-formed parameters: the four positions differ, and each of their bytes can be spelt. -/
theorem params_wf_iff {P : Config.Params} :
    P.wf = true ↔ P.positions.Nodup ∧ ∀ c ∈ P.positions, ∀ release, P.spells release c = true := by
  simp [Config.Params.wf]

/-- Decoding inverts encoding: every row but PREFIX, GETCHAR and INIT is the word of a byte that can be spelt. -/
theorem decode_encode {P : Config.Params} {i : Instr} (params : P.wf = true) (wf : i.wf P = true) :
    decode (encode i P) P = .transaction i := by
  obtain ⟨distinct, spelt⟩ := params_wf_iff.mp params
  simp only [Config.Params.positions, List.nodup_cons, List.mem_cons, List.not_mem_nil, not_or] at distinct
  obtain ⟨⟨lr, lc, ln, -⟩, ⟨rc, rn, -⟩, ⟨cn, -⟩, -⟩ := distinct
  have left := spelt P.shiftL (by simp [Config.Params.positions])
  have right := spelt P.shiftR (by simp [Config.Params.positions])
  have caps := spelt P.caps (by simp [Config.Params.positions])
  have num := spelt P.num (by simp [Config.Params.positions])
  cases i with
  | extPrefix => rw [encode, decode_wordOf_decode, decodeOf_extByte]
  | shiftLMk | shiftLBrk => exact (decode_byteOf (left _)).trans (by simp [rowOfFields])
  | shiftRMk | shiftRBrk => exact (decode_byteOf (right _)).trans (by simp [rowOfFields, Ne.symm lr])
  | capsMk | capsBrk => exact (decode_byteOf (caps _)).trans (by simp [rowOfFields, Ne.symm lc, Ne.symm rc])
  | numMk | numBrk =>
    exact (decode_byteOf (num _)).trans (by simp [rowOfFields, Ne.symm ln, Ne.symm rn, Ne.symm cn])
  | keyMk =>
    obtain ⟨other, spells⟩ := keyMk_wf_iff.mp wf
    exact (decode_byteOf spells).trans (by simp [rowOfFields_key other])
  | keyBrk =>
    obtain ⟨other, spells⟩ := keyBrk_wf_iff.mp wf
    exact (decode_byteOf spells).trans (by simp [rowOfFields_key other])
  | getchar => exact decode_eq_getchar_iff.mpr rfl
  | init => exact decode_eq_init_iff.mpr rfl

/-- Settles O4: the decoder reads back the fields the encoder wrote, and distinct positions leave one row for them. -/
theorem encodedTransactionDecodesBack : Obligations.EncodedTransactionDecodesBack :=
  fun _ _ => decode_encode

/-! ## Decode, then encode (R74) -/

/-- With the masks of R77 every byte but PREFIX can be spelt. -/
theorem spells_fields {P : Config.Params} (release : P.releaseMask = 0x80) (base : P.baseMask = 0x7F) {b : Byte}
    (notPrefix : b ≠ P.extByte) : P.spells (isRelease b P) (baseCode b P) = true := by
  rw [spells_iff, byteOf_fields release base]
  exact ⟨rfl, rfl, notPrefix⟩

theorem decodeOf_wf_encode {P : Config.Params} (release : P.releaseMask = 0x80) (base : P.baseMask = 0x7F) (b : Byte) :
    (decodeOf b P).wf P = true ∧ encode (decodeOf b P) P = wordOf 0b00 b := by
  by_cases isPrefix : b = P.extByte
  · rw [isPrefix, decodeOf_extByte]
    exact ⟨rfl, rfl⟩
  · rw [decodeOf_eq_rowOfFields isPrefix, encode_rowOfFields, byteOf_fields release base]
    exact ⟨rowOfFields_wf (spells_fields release base isPrefix), rfl⟩

/-- Settles O5: a DECODE word is its byte, the byte is its two fields, and the row writes them back. -/
theorem decodedTransactionEncodesBack : Obligations.DecodedTransactionEncodesBack := by
  unfold Obligations.DecodedTransactionEncodesBack
  intro P w i release base h
  rcases decode_transaction_cases h with ⟨op, -⟩ | ⟨rfl, rfl⟩ | ⟨rfl, rfl⟩
  · obtain rfl : decodeOf (dataOf w) P = i := by simpa [decode_of_opOf_zero P op] using h
    rw [← wordOf_fields w, op, dataOf_wordOf]
    exact decodeOf_wf_encode release base _
  · exact ⟨rfl, rfl⟩
  · exact ⟨rfl, rfl⟩

/-! ## The refused words (R72, R73) -/

theorem decode_eq_reservedOp_iff {w : TWord} {P : Config.Params} : decode w P = .reject .reservedOp ↔ opOf w = 0b11 := by
  have exhaust : ∀ op : BitVec 2, op ≠ 0b00 → op ≠ 0b01 → op ≠ 0b10 → op = 0b11 := by decide
  unfold decode
  split_ifs with op00 op01 zero op10 zero
  · simp [op00]
  · simp [op01]
  · simp [op01]
  · simp [op10]
  · simp [op10]
  · simp [exhaust _ op00 op01 op10]

theorem decode_eq_dataNotZero_iff {w : TWord} {P : Config.Params} :
    decode w P = .reject .dataNotZero ↔ (opOf w = 0b01 ∨ opOf w = 0b10) ∧ dataOf w ≠ 0 := by
  unfold decode
  split_ifs with op00 op01 zero op10 zero
  · exact iff_of_false nofun (by simp [op00])
  · exact iff_of_false nofun fun ⟨_, nonzero⟩ => nonzero zero
  · exact iff_of_true rfl ⟨.inl op01, zero⟩
  · exact iff_of_false nofun fun ⟨_, nonzero⟩ => nonzero zero
  · exact iff_of_true rfl ⟨.inr op10, zero⟩
  · exact iff_of_false nofun fun ⟨op, _⟩ => op.elim op01 op10

end Sys2Proof

namespace Sys2Proof.Machine

/-- Settles O6: the verdict on a word follows its `op` and whether its data is 0, and a step refuses with that verdict. -/
theorem refusedWordsAreTheUnassignedOnes : Obligations.RefusedWordsAreTheUnassignedOnes := by
  unfold Obligations.RefusedWordsAreTheUnassignedOnes
  refine ⟨fun P w => ⟨decode_eq_reservedOp_iff, decode_eq_dataNotZero_iff, ?_, ?_⟩, fun s d rest h => ⟨?_, ?_⟩⟩
  · rw [decode_eq_getchar_iff, word_eq_getchar_iff]
  · rw [decode_eq_init_iff, word_eq_init_iff]
  · exact fun reserved => step_reject h (decode_eq_reservedOp_iff.mpr reserved)
  · exact fun nonzero => step_reject h (decode_eq_dataNotZero_iff.mpr nonzero)

/-! ## A placed word -/

/-- A 10-bit word is placed as it is: no value of it is too wide. -/
theorem tableWord_toNat (w : TWord) : tableWord 16 w.toNat = w := by
  have value : tableValue 16 w.toNat = w.toNat := Nat.mod_eq_of_lt (by omega)
  rw [tableWord, value, if_pos w.isLt, BitVec.ofNat_toNat, BitVec.setWidth_eq]

/-- The step after the placing of a word that spells `i` performs `i`, in a block that has been brought up where it must. -/
theorem step_deliver {i : Instr} {w : TWord} {s : State} (h : decode w s.params = .transaction i) :
    step (deliver w s) =
      exec i { (if i = .init ∨ s.life = .ready then s else s.bringUp) with caller := issuer i } := by
  have placed : ∀ t : State, t.params = s.params →
      step { t with schedule := ⟨issuer i, w⟩ :: t.schedule } = exec i { t with caller := issuer i } :=
    fun t same => step_transaction (d := ⟨issuer i, w⟩) (rest := t.schedule) rfl (by simpa only [same] using h)
  simp only [deliver, h]
  exact placed _ (by split_ifs <;> rfl)

/-- Settles O2: the encoded word is delivered as it is and decodes back. -/
theorem fetchWordIsPerformedNext : Obligations.FetchWordIsPerformedNext := by
  unfold Obligations.FetchWordIsPerformedNext
  intro i s params wf
  rw [State.withFetchWord, tableWord_toNat, step_deliver (decode_encode params wf)]
  exact ⟨fun asItIs => by rw [if_pos asItIs], fun ⟨notInit, uninit⟩ => by rw [if_neg (by simp [notInit, uninit])]⟩

end Sys2Proof.Machine

namespace Sys2Proof

/-! ## The class table (R78) -/

/-- Settles O7: a byte is PREFIX, or its release bit picks the rows and its base code one of them; the table's fourth
column, of this hardware, is checked byte by byte. -/
theorem everyByteHasItsClass : Obligations.EveryByteHasItsClass := by
  unfold Obligations.EveryByteHasItsClass
  refine ⟨fun P b => ⟨decode_wordOf_decode P b, row_isDecode _ _ P, ?_, (isRelease_eq_bit · b), (baseCode_eq_field · b)⟩, ?_⟩
  · by_cases isPrefix : b = P.extByte
    · simp [isPrefix, byteClass_extByte]
    · cases release : isRelease b P with
      | false => rw [byteClass_make isPrefix release]; split_ifs <;> simp_all
      | true => rw [byteClass_break isPrefix release]; split_ifs <;> simp_all
  · decide

/-! ## The byte PREFIX shadows (R79) -/

/-- Settles O8: 0x60 with the release bit is the byte 0xE0, which is PREFIX, and a ROM that ends before 0x60 has no
entry there. -/
theorem prefixShadowsTheReleaseOf60 : Obligations.PrefixShadowsTheReleaseOf60 := by
  unfold Obligations.PrefixShadowsTheReleaseOf60
  refine ⟨by decide, by decide, fun P ext => ?_, fun b release code => ?_, fun P w ext release base h => ?_,
    fun P rom m wf depth => ?_, rfl, rfl, rfl, by decide⟩
  · have shadowed := decode_wordOf_decode P P.extByte
    rwa [decodeOf_extByte, ext] at shadowed
  · rw [← byteOf_fields (P := Config.hw) rfl rfl b, release, code]; rfl
  · obtain ⟨wf, -⟩ := decodedTransactionEncodesBack P w _ release base h
    obtain ⟨-, -, notPrefix⟩ := spells_iff.mp (keyBrk_wf_iff.mp wf).2
    exact notPrefix (by rw [byteOf, release, ext]; rfl)
  · have absent : rom[(0x60 : Code).toNat]? = none :=
      List.getElem?_eq_none ((Machine.wf_length wf).trans_le depth)
    exact Machine.emission_silent (Machine.wf_positioned wf) (by simp only [Machine.Rom.silentAt, absent]) P m

/-! ## Words written out, and the assembler's lines (R78, R82) -/

/-- Settles O3, row by row. -/
theorem writtenOutWordsDecode : Obligations.WrittenOutWordsDecode := by
  unfold Obligations.WrittenOutWordsDecode
  decide

/-- `DECODE b` is the byte zero-extended (R70). -/
theorem wordOf_zero (b : Byte) : wordOf 0b00 b = b.setWidth 10 := (BitVec.setWidth_eq_append (by decide)).symm

/-- A make byte is its code zero-extended, and the break byte lies 0x80 above it (R77). -/
theorem byteOf_hw_setWidth : ∀ code : Code, (byteOf false code).setWidth 10 = code.setWidth 10 ∧
    (byteOf true code).setWidth 10 = code.setWidth 10 + 0x80 := by decide

/-- Settles O9: each line's words are DECODE words, GETCHAR or INIT. -/
theorem assemblerLinesExpand : Obligations.AssemblerLinesExpand := by
  unfold Obligations.AssemblerLinesExpand
  refine ⟨fun b => ?_, rfl, rfl, fun code => ?_, fun b => ?_, rfl, rfl⟩
  · rw [AsmLine.words, wordOf_zero]
  · obtain ⟨make, brk⟩ := byteOf_hw_setWidth code
    rw [AsmLine.words, wordOf_zero, wordOf_zero, make, brk]
  · rw [AsmLine.words, wordOf_zero b]; rfl

end Sys2Proof

namespace Sys2Proof.Machine

/-! ## Layouts (R76, R81, R23) -/

/-- Settles O34: `valid` stands above the eight wires of `data`. -/
theorem resultWireForm : Obligations.ResultWireForm := by
  unfold Obligations.ResultWireForm
  refine ⟨fun n v => ⟨?_, BitVec.extractLsb'_append_eq_right⟩, fun n => ?_⟩
  · rw [resultWire, BitVec.getLsbD_append]; rfl
  · rw [resultWire, BitVec.getLsbD_append]; rfl

/-- The fields of a ROM word are read back from it (R81). -/
theorem ofWord_toWord (e : ScancodeEntry) : ScancodeEntry.ofWord e.toWord = e := by
  unfold ScancodeEntry.ofWord ScancodeEntry.toWord
  congr 1
  · rw [BitVec.extractLsb'_append_eq_of_add_le (by decide), BitVec.extractLsb'_append_eq_of_add_le (by decide),
      BitVec.extractLsb'_append_eq_right]
  · rw [BitVec.extractLsb'_append_eq_of_add_le (by decide), BitVec.extractLsb'_append_eq_of_add_le (by decide),
      BitVec.extractLsb'_append_eq_of_le (by decide)]
    simp
  · rw [BitVec.extractLsb'_append_eq_of_add_le (by decide), BitVec.extractLsb'_append_eq_of_le (by decide)]
    simp
  · rw [BitVec.extractLsb'_append_eq_of_le (by decide)]
    simp

/-- A ROM word is its four fields (R81). -/
theorem toWord_ofWord (w : BitVec 32) : (ScancodeEntry.ofWord w).toWord = w := by
  simp only [ScancodeEntry.ofWord, ScancodeEntry.toWord]
  rw [BitVec.extractLsb'_append_extractLsb'_eq_extractLsb' (by decide),
    BitVec.extractLsb'_append_extractLsb'_eq_extractLsb' (by decide),
    BitVec.extractLsb'_append_extractLsb'_eq_extractLsb' (by decide)]
  exact BitVec.extractLsb'_eq_self

/-- Settles O56: the layouts and their readings invert each other, so each field is what is read at its bits. -/
theorem layoutsPlaceTheirFields : Obligations.LayoutsPlaceTheirFields := by
  unfold Obligations.LayoutsPlaceTheirFields
  refine ⟨fun e => ?_, toWord_ofWord, ?_, by decide⟩
  · have back := ofWord_toWord e
    exact ⟨congrArg (·.raw) back, congrArg (·.unshifted) back, congrArg (·.shifted) back, congrArg (·.vk) back, back⟩
  · rintro ⟨shift, caps, num, ext⟩
    revert shift caps num ext
    decide

end Sys2Proof.Machine

namespace Sys2Proof.Machine

/-! ## PUSH and POP at the pointers (40_ring_buffer.md R100, R101, R103) -/

/-- Settles O45: with room, the one slot PUSH writes is `head`. -/
theorem pushWritesAtHead : Obligations.PushWritesAtHead := by
  unfold Obligations.PushWritesAtHead
  refine fun cap f c => ⟨push_full c, fun room => ?_⟩
  rw [push_room c room]
  exact ⟨rfl, read_write_same _ _ c, fun a other => read_write_other _ c other, rfl, rfl, rfl⟩

/-- Settles O46: with a byte there, POP reads at `tail` and writes no slot. -/
theorem popReadsAtTail : Obligations.PopReadsAtTail := by
  unfold Obligations.PopReadsAtTail
  refine fun cap f => ⟨pop_empty, fun nonempty => ?_⟩
  rw [pop_some nonempty]
  exact ⟨rfl, rfl, Nat.sub_one_add_one nonempty, rfl, rfl⟩

/-- `next` of the last index is 0, of any other the one after it (R100). -/
theorem nextIndex_eq_ite {cap i : Nat} (h : i < cap) : nextIndex cap i = if i + 1 = cap then 0 else i + 1 := by
  unfold nextIndex
  split
  · rename_i last; rw [last, Nat.mod_self]
  · exact Nat.mod_eq_of_lt (by omega)

section
variable {cap : Nat} (f : Fifo) (c : Byte)

/-- PUSH succeeds exactly where there is room (R101). -/
theorem push_result_eq_true_iff : (f.push cap c).1 = true ↔ f.count ≠ cap := by
  rcases push_cases (cap := cap) f c with ⟨full, e⟩ | ⟨room, e, -⟩ <;> simp [*]

/-- PUSH counts one more exactly where it succeeds (R100). -/
theorem push_count : (f.push cap c).2.count = if (f.push cap c).1 then f.count + 1 else f.count := by
  rcases push_cases (cap := cap) f c with ⟨-, e⟩ | ⟨-, success, -, -, -, count⟩
  · simp [e]
  · rw [if_pos success, count]

/-- POP returns a byte exactly where one is queued (R103). -/
theorem pop_isSome_iff : (f.pop cap).1.isSome = true ↔ 0 < f.count := by
  rcases pop_cases (cap := cap) f with ⟨empty, e⟩ | ⟨nonempty, e, -⟩ <;> simp [*]

/-- POP counts one less exactly where it returns a byte (R100). -/
theorem pop_count : (f.pop cap).2.count = if (f.pop cap).1.isSome then f.count - 1 else f.count := by
  rcases pop_cases (cap := cap) f with ⟨-, e⟩ | ⟨-, value, -, -, -, count⟩
  · simp [e]
  · rw [if_pos (by simp [value]), count]

end

/-- Settles O47: `count` inside the capacity is below it exactly where it is not the capacity. -/
theorem nextWrapsAtTheCapacity : Obligations.NextWrapsAtTheCapacity := by
  unfold Obligations.NextWrapsAtTheCapacity
  intro cap f c h
  have room : f.count ≠ cap ↔ f.count < cap := h.2.2.lt_iff_ne.symm
  exact ⟨fun i lt => ⟨rfl, nextIndex_eq_ite lt⟩, (push_result_eq_true_iff f c).trans room, push_count f c,
    pop_isSome_iff f, pop_count f, push_keeps_inRange h c, pop_keeps_inRange h⟩

/-! ## PUSH and POP on the content (R102, R104) -/

/-- Settles O48: with room the new byte is the last of the content. -/
theorem pushAppendsToTheContent : Obligations.PushAppendsToTheContent := by
  unfold Obligations.PushAppendsToTheContent
  exact fun cap f c h => ⟨fun full => by simp [push_full c full], fun room => push_contents h room c⟩

section
variable {cap : Nat} {f : Fifo}

@[simp] theorem contents_length (cap : Nat) (f : Fifo) : (f.contents cap).length = f.count := by simp [Fifo.contents]

/-- The content is empty exactly where `count` is 0 (10_state.md R32). -/
theorem contents_eq_nil_iff : f.contents cap = [] ↔ f.count = 0 := by rw [← List.length_eq_zero_iff, contents_length]

/-- POP on `v` followed by `r` returns `v` and leaves `r` (R104). -/
theorem pop_of_contents_cons {v : Byte} {r : List Byte} (tail : f.tail < cap) (h : f.contents cap = v :: r) :
    (f.pop cap).1 = some v ∧ (f.pop cap).2.contents cap = r := by
  have nonempty : f.count ≠ 0 := by simp [← contents_length cap f, h]
  have split := pop_contents tail
  rw [h, pop_some nonempty] at split
  obtain ⟨value, rest⟩ := List.cons.inj split
  rw [pop_some nonempty]
  exact ⟨congrArg some value.symm, rest.symm⟩

end

/-- Settles O49. -/
theorem popTakesTheOldest : Obligations.PopTakesTheOldest := by
  unfold Obligations.PopTakesTheOldest
  refine fun cap f tail => ⟨fun empty => ?_, fun v r h => pop_of_contents_cons tail h⟩
  rw [pop_empty (contents_eq_nil_iff.mp empty)]
  exact ⟨rfl, empty⟩

/-! ## Sequences of PUSH and of POP (R107) -/

section
variable {cap : Nat} {f : Fifo}

/-- As many pushes as fit all succeed and append their bytes in order. -/
theorem pushAll_of_room {cs : List Byte} (h : f.linked cap) (fits : f.count + cs.length ≤ cap) :
    f.pushResults cap cs = List.replicate cs.length true ∧ (f.pushAll cap cs).linked cap ∧
      (f.pushAll cap cs).contents cap = f.contents cap ++ cs := by
  induction cs generalizing f with
  | nil => exact ⟨rfl, h, (List.append_nil _).symm⟩
  | cons c cs ih =>
    rw [List.length_cons] at fits
    have room : f.count ≠ cap := by omega
    have success := (push_result_eq_true_iff f c).mpr room
    have count : (f.push cap c).2.count = f.count + 1 := by rw [push_count, if_pos success]
    obtain ⟨results, linked, contents⟩ := ih (push_keeps_linked h c) (by omega)
    refine ⟨?_, linked, ?_⟩
    · rw [Fifo.pushResults, success, results]; rfl
    · rw [push_contents h room c, List.append_assoc] at contents
      exact contents

/-- As many POPs as there are bytes return the content in order. -/
theorem popResults_eq_contents {cs : List Byte} (h : f.inRange cap) (contents : f.contents cap = cs) :
    f.popResults cap cs.length = cs.map some := by
  induction cs generalizing f with
  | nil => rfl
  | cons v cs ih =>
    obtain ⟨value, rest⟩ := pop_of_contents_cons h.2.1 contents
    rw [List.length_cons, Fifo.popResults, value, ih (pop_keeps_inRange h) rest, List.map_cons]

end

/-- Settles O50: the pushes put the bytes in the content in order, and the pops take the content in order. -/
theorem poppedOrderEqualsPushOrder : Obligations.PoppedOrderEqualsPushOrder := by
  unfold Obligations.PoppedOrderEqualsPushOrder
  intro cap f cs h
  refine ⟨fun empty fits => ?_, fun exactly => ?_⟩
  · obtain ⟨results, ⟨inRange, -⟩, contents⟩ := pushAll_of_room h (cs := cs) (by omega)
    rw [contents_eq_nil_iff.mpr empty, List.nil_append] at contents
    exact ⟨results, popResults_eq_contents inRange contents⟩
  · have fills : f.count + cs.length = cap := by rw [exactly]; exact Nat.add_sub_of_le h.1.2.2
    obtain ⟨results, -, contents⟩ := pushAll_of_room h fills.le
    have full : (f.pushAll cap cs).count = cap := by
      rw [← contents_length cap, contents, List.length_append, contents_length, fills]
    exact ⟨results, full, contents, fun c => push_full c full⟩

end Sys2Proof.Machine

/-!
SUPPORT. 41_scancode_rom.md: LOOKUP as the first match and as direct indexing (R123, R124), what a transaction reads of
the ROM (R132), the makes over a ROM that is ill-formed or holds the fixed keys (R122, R129, R130), and the reference
fill.
-/
namespace Sys2Proof.Machine

/-! ## LOOKUP (R123, R124) -/

section
variable {rom : Rom} {code : Code} {e : ScancodeEntry}

theorem answers_iff : e.answers code = true ↔ e.raw.toNat = code.toNat ∧ e.raw ≠ 0 := by
  simp only [ScancodeEntry.answers, Bool.and_eq_true, beq_iff_eq, bne_iff_ne, ← BitVec.toNat_inj,
    BitVec.toNat_setWidth_of_le (show 7 ≤ 8 by decide)]

theorem not_answers_iff : (!e.answers code) = true ↔ e.raw.toNat ≠ code.toNat ∨ e.raw = 0 := by
  rw [Bool.not_eq_true', ← Bool.not_eq_true, answers_iff, not_and_or, not_not]

/-- The scan answers with the first entry whose `raw` is the code and not 0. -/
theorem lookup_eq_some_iff : lookup rom code = some e ↔
    ∃ i : Nat, rom[i]? = some e ∧ e.raw.toNat = code.toNat ∧ e.raw ≠ 0 ∧
      ∀ (j : Nat) (e' : ScancodeEntry), j < i → rom[j]? = some e' → e'.raw.toNat ≠ code.toNat ∨ e'.raw = 0 := by
  rw [lookup, List.find?_eq_some_iff_getElem]
  constructor
  · rintro ⟨found, i, lt, rfl, first⟩
    obtain ⟨raw, nonzero⟩ := answers_iff.mp found
    refine ⟨i, List.getElem?_eq_getElem lt, raw, nonzero, fun j e' before at_j => ?_⟩
    obtain ⟨lt_j, rfl⟩ := List.getElem?_eq_some_iff.mp at_j
    exact not_answers_iff.mp (first j before)
  · rintro ⟨i, at_i, raw, nonzero, first⟩
    obtain ⟨lt, rfl⟩ := List.getElem?_eq_some_iff.mp at_i
    refine ⟨answers_iff.mpr ⟨raw, nonzero⟩, i, lt, rfl, fun j before => ?_⟩
    exact not_answers_iff.mpr (first j _ before (List.getElem?_eq_getElem (before.trans lt)))

/-- Under R122 an entry that answers stands at the code's position, so the scan reads that position alone. -/
theorem lookup_of_positioned (h : Rom.positioned rom = true) :
    lookup rom code = rom[code.toNat]?.filter (·.raw != 0) := by
  ext e
  rw [lookup_eq_some_iff, Option.filter_eq_some_iff, bne_iff_ne]
  constructor
  · rintro ⟨i, at_i, raw, nonzero, -⟩
    have position : e.raw.toNat = i := (positioned_get h at_i).resolve_left nonzero
    exact ⟨by rw [← raw, position]; exact at_i, nonzero⟩
  · rintro ⟨at_code, nonzero⟩
    have raw : e.raw.toNat = code.toNat := (positioned_get h at_code).resolve_left nonzero
    refine ⟨code.toNat, at_code, raw, nonzero, fun j e' before at_j => ?_⟩
    exact (positioned_get h at_j).symm.imp_left fun position => by omega

theorem lookup_zero : lookup rom 0 = none :=
  List.find?_eq_none.mpr fun e _ found => by
    obtain ⟨raw, nonzero⟩ := answers_iff.mp found
    exact nonzero (BitVec.eq_of_toNat_eq raw)

/-- From the ROM depth on there is no position to read. -/
theorem lookup_beyond_depth {P : Config.Params} (wf : Rom.wf rom P = true) (beyond : P.romDepth ≤ code.toNat) :
    lookup rom code = none := by
  rw [lookup_of_positioned (wf_positioned wf), List.getElem?_eq_none ((wf_length wf).trans_le beyond)]
  rfl

end

/-- Settles O53: the scan reads the code's position, and there is none from the depth on. -/
theorem lookupEqualsDirectIndexing : Obligations.LookupEqualsDirectIndexing := by
  unfold Obligations.LookupEqualsDirectIndexing
  intro P rom code depth positioned
  rw [lookup_of_positioned positioned]
  split
  · rfl
  · rename_i beyond
    rw [List.getElem?_eq_none (by omega)]
    rfl

/-- Settles O54: the four clauses are the lemmas above, the last for this hardware's depth. -/
theorem lookupFindsTheFirstMatch : Obligations.LookupFindsTheFirstMatch :=
  ⟨fun _ _ _ => lookup_eq_some_iff, fun _ => lookup_zero, fun _ _ _ => lookup_beyond_depth,
    fun _ _ => lookup_beyond_depth (P := Config.hw)⟩

/-! ## Virtual key codes are read by nothing (R132) -/

section
variable (rom : Rom)

theorem positionedFrom_withoutVk (i : Nat) : Rom.positionedFrom i (Rom.withoutVk rom) = Rom.positionedFrom i rom := by
  induction rom generalizing i with
  | nil => rfl
  | cons e rest ih => exact congrArg ((e.raw == 0 || e.raw.toNat == i) && ·) (ih (i + 1))

theorem silentAt_withoutVk (code : Code) : Rom.silentAt (Rom.withoutVk rom) code = Rom.silentAt rom code := by
  simp only [Rom.silentAt, Rom.withoutVk, List.getElem?_map]
  cases rom[code.toNat]? <;> rfl

theorem wf_withoutVk (P : Config.Params) : Rom.wf (Rom.withoutVk rom) P = Rom.wf rom P := by
  have length : (Rom.withoutVk rom).length = rom.length := List.length_map _
  simp only [Rom.wf, Rom.positioned, length, positionedFrom_withoutVk, silentAt_withoutVk]

theorem lookup_withoutVk (code : Code) :
    lookup (Rom.withoutVk rom) code = (lookup rom code).map fun e => { e with vk := 0 } := by
  rw [lookup, Rom.withoutVk, List.find?_map]
  rfl

/-- The character of a make is chosen from `unshifted` and `shifted`. -/
theorem emission_withoutVk (P : Config.Params) (m : ModReg) (code : Code) :
    emission P (Rom.withoutVk rom) m code = emission P rom m code := by
  simp only [emission, lookup_withoutVk]
  cases lookup rom code <;> rfl

end

section
variable {s : State} {r : Rom}

theorem emitted_of_withoutVk_eq (h : Rom.withoutVk r = Rom.withoutVk s.rom) (code : Code) :
    ({ s with rom := r } : State).emitted code = s.emitted code := by
  rw [State.emitted, State.emitted, ← emission_withoutVk, h, emission_withoutVk]

/-- Only a KEY make's PUSH takes anything from the ROM, its character. -/
theorem fifoAfter_of_withoutVk_eq (h : Rom.withoutVk r = Rom.withoutVk s.rom) (i : Instr) :
    fifoAfter i { s with rom := r } = fifoAfter i s := by
  cases i with
  | keyMk code =>
    simp only [fifoAfter, emitted_of_withoutVk_eq h]
    cases s.emitted code <;> rfl
  | _ => rfl

/-- Whether a transaction completes, what it leaves and why it is refused depend on the ROM through its well-formedness
and the characters it emits. -/
theorem exec_of_withoutVk_eq (h : Rom.withoutVk r = Rom.withoutVk s.rom) (i : Instr) :
    exec i { s with rom := r } = mapNext (fun t => { t with rom := r }) (exec i s) := by
  have wf : Rom.wf r s.params = Rom.wf s.rom s.params := by rw [← wf_withoutVk, h, wf_withoutVk]
  rcases outcome_next_or_refused (exec i s) with ⟨t, completes⟩ | ⟨why, refused⟩
  · rw [completes]
    obtain ⟨⟨life, rom⟩, rfl⟩ := exec_next.mp completes
    refine exec_next.mpr ⟨⟨life, fun look => wf.trans (rom look)⟩, ?_⟩
    rw [stateAfter, fifoAfter_of_withoutVk_eq h]
    rfl
  · rw [refused]
    refine exec_refused.mpr ?_
    rw [wf]
    exact exec_refused.mp refused

end

/-- Settles O37. -/
theorem virtualKeyCodesAreUnobservable : Obligations.VirtualKeyCodesAreUnobservable :=
  ⟨fun i _ _ h => exec_of_withoutVk_eq h i, by decide⟩

/-! ## Makes over an ill-formed ROM (93_implementation_defined.md U13) -/

/-- Settles O23: these are the transactions that reach LOOKUP. -/
theorem illFormedRomIsRefused : Obligations.IllFormedRomIsRefused := by
  unfold Obligations.IllFormedRomIsRefused
  intro s ready illFormed
  have refused : ∀ i, reachesLookup i → exec i s = .refused .illFormedRom := fun i look =>
    exec_refused.mpr (.inr (.inr (.inr ⟨rfl, ready, illFormed, look⟩)))
  exact ⟨fun code => refused _ (.inr (.inr ⟨code, rfl⟩)), refused _ (.inl rfl), refused _ (.inr (.inl rfl))⟩

/-! ## Makes of the fixed keys (R130) -/

section
variable {s : State} {rom : Rom} {code : Code} {unshifted shifted : Byte}

/-- A key with two characters other than 0x00 emits one of them, by the effective shift. -/
theorem emission_of_holds (P : Config.Params) (m : ModReg) (h : Rom.holds rom code unshifted shifted = true)
    (unshiftedNonzero : unshifted ≠ 0) (shiftedNonzero : shifted ≠ 0) :
    emission P rom m code = some (if effectiveShift P m code then shifted else unshifted) := by
  unfold Rom.holds at h
  cases found : lookup rom code with
  | none => simp [found] at h
  | some e =>
    simp only [found, Bool.and_eq_true, beq_iff_eq] at h
    obtain ⟨rfl, rfl⟩ := h
    simp only [emission, found, selectChar]
    split
    · exact if_neg shiftedNonzero
    · exact if_neg unshiftedNonzero

/-- With room, the make of such a key completes and appends the character to the content (R160, R162). -/
theorem keyMk_appends_of_holds (ready : s.life = .ready) (wf : Rom.wf s.rom s.params = true)
    (linked : s.fifo.linked s.params.capacity) (room : s.fifo.count ≠ s.params.capacity)
    (h : Rom.holds s.rom code unshifted shifted = true)
    (unshiftedNonzero : unshifted ≠ 0) (shiftedNonzero : shifted ≠ 0) :
    ∃ t, exec (.keyMk code) s = .next t ∧ t.fifo.contents s.params.capacity =
      s.fifo.contents s.params.capacity ++ [if effectiveShift s.params s.mod code then shifted else unshifted] := by
  refine ⟨_, exec_of_admits ⟨⟨fun _ => nofun, fun _ => ready⟩, fun _ => wf⟩, ?_⟩
  have emits := emission_of_holds s.params s.mod h unshiftedNonzero shiftedNonzero
  refine (fifoAfter_contents (i := .keyMk code) nofun nofun linked).trans ?_
  rw [acceptedBy, if_neg room, State.emitted, emits]
  rfl

end

/-- Settles O29: the three bytes are KEY makes, and of their codes only 0x1E is a letter key's. -/
theorem letterAAndDigitsFollowTheirModifiers : Obligations.LetterAAndDigitsFollowTheirModifiers := by
  unfold Obligations.LetterAAndDigitsFollowTheirModifiers
  intro s ready params wf fixed linked room
  have row : ∀ b, decodeOf b s.params = decodeOf b := fun b => by rw [params]; rfl
  have letter : ∀ code, isLetterKey code s.params = isLetterKey code := fun code => by rw [params]; rfl
  have rows : decodeOf 0x1E = .keyMk 0x1E ∧ decodeOf 0x02 = .keyMk 0x02 ∧ decodeOf 0x03 = .keyMk 0x03 := by decide
  have letters : isLetterKey 0x1E = true ∧ isLetterKey 0x02 = false ∧ isLetterKey 0x03 = false := by decide
  simp only [Rom.holdsFixedKeys, Bool.and_eq_true] at fixed
  obtain ⟨⟨holdsA, holds1⟩, holds2⟩ := fixed
  have makeA := keyMk_appends_of_holds ready wf linked room holdsA (by decide) (by decide)
  have make1 := keyMk_appends_of_holds ready wf linked room holds1 (by decide) (by decide)
  have make2 := keyMk_appends_of_holds ready wf linked room holds2 (by decide) (by decide)
  simp only [effectiveShift, letter, letters, Bool.and_true, Bool.and_false, Bool.xor_false] at makeA make1 make2
  simp only [row, rows]
  exact ⟨makeA, make1, make2⟩

/-! ## The reference fill (R131, R134) -/

/-- Settles O55, count by count over the 94 words. -/
theorem referenceFillMeetsItsRules : Obligations.ReferenceFillMeetsItsRules := by
  unfold Obligations.ReferenceFillMeetsItsRules
  exact ⟨by decide, by decide, by decide, by decide, by decide, by decide, by decide, by decide, by decide⟩

end Sys2Proof.Machine

/-!
SUPPORT. 42_decoder.md: the byte classes of DECODE that read no ROM (R152 to R159), the makes that reach LOOKUP (R155,
R158, R160 to R162), the classes against the pseudocode (R150), and what no DECODE reads or no break byte does (R151,
R164, R165).
-/
namespace Sys2Proof.Machine

/-! ## The classes that read no ROM (R152, R154, R156, R157, R159) -/

/-- Settles O14. -/
theorem prefixSetsOnlyExt : Obligations.PrefixSetsOnlyExt :=
  fun _ ready => whenReady_ready ready

/-- Settles O15: the two keys have the same meaning, `shiftKey`. -/
theorem shiftKeysShareOneHeldBit : Obligations.ShiftKeysShareOneHeldBit :=
  fun _ ready => ⟨whenReady_ready ready, whenReady_ready ready, whenReady_ready ready, whenReady_ready ready⟩

/-- Settles O16. -/
theorem capsReleaseToggles : Obligations.CapsReleaseToggles :=
  fun _ ready => whenReady_ready ready

/-- Settles O17. -/
theorem numReleaseToggles : Obligations.NumReleaseToggles :=
  fun _ ready => whenReady_ready ready

/-- Settles O18: the meaning of KEY_BRK mentions neither its code nor the ROM. -/
theorem otherReleasesAreIgnored : Obligations.OtherReleasesAreIgnored :=
  fun _ _ ready => whenReady_ready ready

/-! ## What a make emits and where it stores (R160) -/

section
variable {s : State} {code : Code}

/-- Letter keys are the codes in one of the ranges, both ends included (41_scancode_rom.md R128). -/
theorem isLetterKey_iff {P : Config.Params} :
    isLetterKey code P = true ↔ ∃ r ∈ P.letterRanges, r.1.toNat ≤ code.toNat ∧ code.toNat ≤ r.2.toNat := by
  simp [isLetterKey, BitVec.le_def]

theorem emitted_of_lookup_none (unmapped : lookup s.rom code = none) : s.emitted code = none := by
  rw [State.emitted, emission, unmapped]

theorem emitted_of_lookup_some {e : ScancodeEntry} (found : lookup s.rom code = some e) :
    s.emitted code = printable (selectChar e (effectiveShift s.params s.mod code)) := by
  rw [State.emitted, emission, found]

/-- A make stores nothing where it has no character to push or no room for it. -/
theorem makeSlot_eq_none_iff :
    makeSlot code s = none ↔ s.emitted code = none ∨ s.fifo.count = s.params.capacity := by
  cases e : s.emitted code <;> simp [makeSlot, Fifo.pushSlot, e]

/-- A make that stores has a character and the room for it, and stores at `head`. -/
theorem makeSlot_eq_some_iff {a : Nat} :
    makeSlot code s = some a ↔
      ∃ c, s.emitted code = some c ∧ s.fifo.count ≠ s.params.capacity ∧ s.fifo.head = a := by
  cases e : s.emitted code <;> simp [makeSlot, Fifo.pushSlot, e]

@[simp] theorem emit_tail (ch : Option Byte) : (s.emit ch).fifo.tail = s.fifo.tail := by
  cases ch with
  | none => rfl
  | some c => exact push_tail s.fifo c

/-- An emission with room is one PUSH, at `head`. -/
theorem emit_some_of_room (c : Byte) (room : s.fifo.count ≠ s.params.capacity) :
    (s.emit (some c)).fifo =
      { s.fifo with
        store := Memory.write s.fifo.store s.fifo.head c
        head := nextIndex s.params.capacity s.fifo.head
        count := s.fifo.count + 1 } := by
  rw [emit_some_fifo, push_room c room]

/-- A make leaves every byte of STORE outside its slot. -/
theorem read_emit_outside_slot {a x : Nat} (slot : makeSlot code s = some a) (other : x ≠ a) :
    Memory.read (s.emit (s.emitted code)).fifo.store x = Memory.read s.fifo.store x := by
  obtain ⟨c, emits, room, rfl⟩ := makeSlot_eq_some_iff.mp slot
  rw [emits, emit_some_of_room c room]
  exact read_write_other _ c other

/-- Over a ROM of this block a make emits what it emits and clears `MOD.ext`. -/
theorem makeKey_of_wf (ready : s.life = .ready) (wf : Rom.wf s.rom s.params = true) :
    makeKey code s = .next ((s.emit (s.emitted code)).setExt false) :=
  makeKey_next.mpr ⟨ready, wf, rfl⟩

/-- Where a make stores nothing, it only clears `MOD.ext`. -/
theorem makeKey_without_slot (ready : s.life = .ready) (wf : Rom.wf s.rom s.params = true)
    (nothing : makeSlot code s = none) : makeKey code s = .next (s.setExt false) := by
  rw [makeKey_of_wf ready wf, emit_eq, emit_without_slot nothing]

theorem makeKey_of_emitted_none (ready : s.life = .ready) (wf : Rom.wf s.rom s.params = true)
    (silent : s.emitted code = none) : makeKey code s = .next (s.setExt false) :=
  makeKey_without_slot ready wf (makeSlot_eq_none_iff.mpr (.inl silent))

end

/-! ## The makes (R155, R158, R160 to R162) -/

/-- Settles O19: R129 leaves the two lock keys no character. -/
theorem lockPressesAreIgnored : Obligations.LockPressesAreIgnored :=
  fun _ ready wf =>
    ⟨makeKey_of_emitted_none ready wf (emitted_caps wf), makeKey_of_emitted_none ready wf (emitted_num wf)⟩

/-- Settles O20: what LOOKUP does not find emits nothing; in the reference fill it reads the code's position. -/
theorem unmappedMakesAreIgnored : Obligations.UnmappedMakesAreIgnored := by
  unfold Obligations.UnmappedMakesAreIgnored
  refine ⟨fun s code ready wf unmapped => makeKey_of_emitted_none ready wf (emitted_of_lookup_none unmapped), ?_⟩
  intro code
  rw [lookup_of_positioned (by decide)]
  revert code
  decide

/-- Settles O21: under R122 LOOKUP reads the code's position, and the character found there is pushed if there is room. -/
theorem keyMakePushesItsCharacter : Obligations.KeyMakePushesItsCharacter := by
  unfold Obligations.KeyMakePushesItsCharacter
  constructor
  · intro s code ready wf unmapped
    have absent : lookup s.rom code = none := by
      rw [lookup_of_positioned (wf_positioned wf)]
      simpa [Option.filter_eq_none_iff] using unmapped
    exact makeKey_of_emitted_none ready wf (emitted_of_lookup_none absent)
  · intro s code e ready wf entry mapped letter eff ch
    have found : lookup s.rom code = some e := by
      rw [lookup_of_positioned (wf_positioned wf), entry]
      exact Option.filter_some_pos (bne_iff_ne.mpr mapped)
    have letterKey : isLetterKey code s.params = decide letter := by
      rw [Bool.eq_iff_iff, isLetterKey_iff, decide_eq_true_iff]
    have emits : s.emitted code = printable ch := by
      rw [emitted_of_lookup_some found, effectiveShift, letterKey]
      rfl
    refine ⟨fun silentOrFull => ?_, fun nonzero room => ?_⟩
    · have nothing : makeSlot code s = none :=
        makeSlot_eq_none_iff.mpr (silentOrFull.imp_left fun zero => emits.trans (if_pos zero))
      exact makeKey_without_slot ready wf nothing
    · have pushes : s.emitted code = some ch := emits.trans (if_neg nonzero)
      refine ⟨_, makeKey_of_wf ready wf, ?_⟩
      rw [pushes, setExt_fifo, emit_some_of_room ch room]
      exact ⟨rfl, read_write_same _ _ ch, fun a other => read_write_other _ ch other, rfl, rfl, rfl, rfl, rfl, rfl, rfl,
        rfl, rfl⟩

/-- Settles O22: the three makes are `makeKey` of their codes, whose emission writes its slot and the pointers alone. -/
theorem makeFrame : Obligations.MakeFrame := by
  unfold Obligations.MakeFrame
  intro s t i code make h
  have meaning : exec i s = makeKey code s := by
    rcases make with rfl | ⟨rfl, rfl⟩ | ⟨rfl, rfl⟩ <;> rfl
  rw [meaning] at h
  obtain ⟨-, -, rfl⟩ := makeKey_next.mp h
  refine ⟨fun a slot x other => read_emit_outside_slot slot other, fun nothing => ?_, ?_⟩
  · have same := emit_without_slot nothing
    exact ⟨same, fun x => by rw [setExt_fifo, same]⟩
  · simp

/-! ## The pseudocode of DECODE (R150) -/

/-- Steps 3 to 9 of R150 in the model's own operations, by a byte's two fields: a shift key, a lock key's release, and
what reaches LOOKUP, which emits unless the byte is a release. -/
def fieldsOutcome (release : Bool) (code : Code) (s : State) : Outcome :=
  if isShiftKey code s.params then .next ((s.setShift (!release)).setExt false)
  else if isCapsLockKey code s.params && release then .next ((s.setCaps (!s.mod.caps)).setExt false)
  else if isNumLockKey code s.params && release then .next ((s.setNum (!s.mod.num)).setExt false)
  else if release then .next (s.setExt false)
  else .next ((s.emit (s.emitted code)).setExt false)

section
variable {s : State} {b : Byte}

theorem decodeByte_uninit (uninit : s.life = .uninit) : decodeByte b s = .refused .decodeBeforeInit := by
  simp [decodeByte, uninit]

theorem decodeByte_extByte (ready : s.life = .ready) : decodeByte s.params.extByte s = .next (s.setExt true) := by
  have initialised : ¬ s.life ≠ .ready := not_not.mpr ready
  simp only [decodeByte, if_neg initialised, if_true]
  rfl

theorem decodeByte_eq_fieldsOutcome (ready : s.life = .ready) (notPrefix : b ≠ s.params.extByte) :
    decodeByte b s = fieldsOutcome (isRelease b s.params) (baseCode b s.params) s := by
  have initialised : ¬ s.life ≠ .ready := not_not.mpr ready
  unfold decodeByte fieldsOutcome isRelease baseCode
  simp only [if_neg initialised, if_neg notPrefix]
  generalize ((b &&& s.params.releaseMask) != 0) = release
  generalize (b &&& s.params.baseMask).setWidth 7 = code
  refine if_congr Iff.rfl rfl (if_congr Iff.rfl rfl (if_congr Iff.rfl rfl ?_))
  cases found : lookup s.rom code with
  | none => rw [emitted_of_lookup_none found, emit_none, ite_self]; rfl
  | some e =>
    refine if_congr Iff.rfl rfl ?_
    rw [emitted_of_lookup_some found]
    by_cases silent : selectChar e (effectiveShift s.params s.mod code) = 0
    · rw [printable, if_pos silent]
      exact if_neg (not_not.mpr silent)
    · rw [printable, if_neg silent]
      exact if_pos silent

end

theorem isShiftKey_iff {P : Config.Params} {code : Code} :
    isShiftKey code P = true ↔ code = P.shiftL ∨ code = P.shiftR := by
  simp [isShiftKey]

section
variable {s : State} {code : Code}

theorem fieldsOutcome_shift {release : Bool} (shift : code = s.params.shiftL ∨ code = s.params.shiftR) :
    fieldsOutcome release code s = .next ((s.setShift (!release)).setExt false) :=
  if_pos (isShiftKey_iff.mpr shift)

theorem fieldsOutcome_break (notShift : ¬ (code = s.params.shiftL ∨ code = s.params.shiftR)) :
    fieldsOutcome true code s =
      if code = s.params.caps then .next ((s.setCaps (!s.mod.caps)).setExt false)
      else if code = s.params.num then .next ((s.setNum (!s.mod.num)).setExt false)
      else .next (s.setExt false) := by
  rw [fieldsOutcome, if_neg (isShiftKey_iff.not.mpr notShift)]
  simp [isCapsLockKey, isNumLockKey]

/-- A make of any other key reaches LOOKUP and emits. -/
theorem fieldsOutcome_make (notShift : ¬ (code = s.params.shiftL ∨ code = s.params.shiftR)) :
    fieldsOutcome false code s = .next ((s.emit (s.emitted code)).setExt false) := by
  rw [fieldsOutcome, if_neg (isShiftKey_iff.not.mpr notShift)]
  simp

end

/-- A byte's row does what steps 3 to 9 say of the byte's fields: R78 tests the positions in the pseudocode's order. -/
theorem exec_rowOfFields {s : State} (ready : s.life = .ready) (wf : Rom.wf s.rom s.params = true) (release : Bool)
    (code : Code) : exec (rowOfFields release code s.params) s = fieldsOutcome release code s := by
  unfold rowOfFields
  split_ifs with left right caps num
  · rw [fieldsOutcome_shift (.inl left)]
    cases release <;> exact shiftKey_next.mpr ⟨ready, rfl⟩
  · rw [fieldsOutcome_shift (.inr right)]
    cases release <;> exact shiftKey_next.mpr ⟨ready, rfl⟩
  all_goals have notShift : ¬ (code = s.params.shiftL ∨ code = s.params.shiftR) := not_or.mpr ⟨left, right⟩
  · cases release with
    | true => rw [fieldsOutcome_break notShift, if_pos caps]; exact capsReleaseToggles s ready
    | false => rw [fieldsOutcome_make notShift, caps]; exact makeKey_of_wf ready wf
  · cases release with
    | true => rw [fieldsOutcome_break notShift, if_neg caps, if_pos num]; exact numReleaseToggles s ready
    | false => rw [fieldsOutcome_make notShift, num]; exact makeKey_of_wf ready wf
  · cases release with
    | true => rw [fieldsOutcome_break notShift, if_neg caps, if_neg num]; exact otherReleasesAreIgnored s code ready
    | false => rw [fieldsOutcome_make notShift]; exact makeKey_of_wf ready wf

/-- Settles O24: PREFIX is step 2, and every other byte's row is steps 3 to 9 of its fields. -/
theorem classesImplementThePseudocode : Obligations.ClassesImplementThePseudocode := by
  unfold Obligations.ClassesImplementThePseudocode
  intro s b wf
  cases life : s.life with
  | uninit =>
    rw [decodeByte_uninit life]
    exact exec_refused.mpr (.inl ⟨rfl, life, decodeOf_isDecode b s.params⟩)
  | ready =>
    by_cases isPrefix : b = s.params.extByte
    · rw [isPrefix, decodeOf_extByte, decodeByte_extByte life]
      exact prefixSetsOnlyExt s life
    · rw [decodeOf_eq_rowOfFields isPrefix, exec_rowOfFields life wf, decodeByte_eq_fieldsOutcome life isPrefix]

/-! ## No DECODE reads `MOD.ext` (R27, R164) -/

/-- What a DECODE leaves does not depend on the `ext` it finds. -/
theorem stateAfter_setExt {i : Instr} (decodes : i.isDecode = true) (s : State) (v : Bool) :
    stateAfter i (s.setExt v) = stateAfter i s := by
  cases i with
  | keyMk code =>
    have emitted : (s.setExt v).emitted code = s.emitted code := rfl
    simp only [stateAfter, fifoAfter, emitted]
    cases s.emitted code <;> rfl
  | getchar | init => cases decodes
  | extPrefix | shiftLMk | shiftRMk | shiftLBrk | shiftRBrk | capsBrk | numBrk | capsMk | numMk | keyBrk => rfl

theorem exec_setExt {i : Instr} (decodes : i.isDecode = true) (s : State) (v : Bool) :
    exec i (s.setExt v) = exec i s := by
  rcases outcome_next_or_refused (exec i s) with ⟨t, completes⟩ | ⟨why, refused⟩
  · rw [completes]
    obtain ⟨admitted, rfl⟩ := exec_next.mp completes
    exact exec_next.mpr ⟨admitted, stateAfter_setExt decodes s v⟩
  · rw [refused]
    exact exec_refused.mpr (exec_refused (s := s).mp refused)

/-- A sequence goes on from the state its first transaction leaves. -/
theorem execAll_cons_of_next {i : Instr} {is : List Instr} {s t : State} (h : exec i s = .next t) :
    execAll (i :: is) s = execAll is t := by
  simp only [execAll, h]

theorem execAll_singleton (i : Instr) (s : State) : execAll [i] s = exec i s := by
  rw [execAll]
  cases exec i s <;> rfl

/-- Settles O27: after PREFIX the transaction finds a state that differs in `ext` alone. -/
theorem prefixDoesNotAlterTheNextByte : Obligations.PrefixDoesNotAlterTheNextByte := by
  unfold Obligations.PrefixDoesNotAlterTheNextByte
  intro s i decodes
  have unread := exec_setExt decodes s
  refine ⟨unread, fun ready => ?_⟩
  rw [execAll_cons_of_next (prefixSetsOnlyExt s ready), execAll_singleton]
  exact unread true

/-! ## What every DECODE leaves in `MOD.ext` and no break byte does (R151, R165) -/

/-- PREFIX alone of the DECODEs ends with `ext` 1. -/
theorem modAfter_ext {i : Instr} (decodes : i.isDecode = true) (m : ModReg) :
    (modAfter i m).ext = true ↔ i = .extPrefix := by
  cases i <;> simp [modAfter, Instr.isDecode] at decodes ⊢

theorem rowOfFields_ne_extPrefix (release : Bool) (code : Code) (P : Config.Params) :
    rowOfFields release code P ≠ .extPrefix := by
  unfold rowOfFields
  cases release <;> split_ifs <;> nofun

theorem decodeOf_eq_extPrefix_iff {P : Config.Params} {b : Byte} : decodeOf b P = .extPrefix ↔ b = P.extByte := by
  constructor
  · intro h
    by_contra notPrefix
    rw [decodeOf_eq_rowOfFields notPrefix] at h
    exact rowOfFields_ne_extPrefix _ _ P h
  · rintro rfl
    exact decodeOf_extByte P

/-- Settles O25: PREFIX alone ends with `ext` 1, and one byte alone is PREFIX. -/
theorem extRecordsThePrefix : Obligations.ExtRecordsThePrefix := by
  unfold Obligations.ExtRecordsThePrefix
  have records : ∀ (s t : State) (b : Byte), exec (decodeOf b s.params) s = .next t →
      (t.mod.ext = true ↔ b = s.params.extByte) := by
    intro s t b h
    obtain ⟨-, rfl⟩ := exec_next.mp h
    exact (modAfter_ext (decodeOf_isDecode b s.params) s.mod).trans decodeOf_eq_extPrefix_iff
  exact ⟨records, fun s t b ext h => ext ▸ records s t b h⟩

/-- No break byte is a make that reaches LOOKUP (R78). -/
theorem break_not_reachesLookup {P : Config.Params} {b : Byte} (brk : isRelease b P = true) :
    ¬ reachesLookup (decodeOf b P) := by
  by_cases isPrefix : b = P.extByte
  · rw [isPrefix, decodeOf_extByte]
    simp [reachesLookup]
  · rw [decodeOf_eq_rowOfFields isPrefix, brk, rowOfFields]
    split_ifs <;> simp [reachesLookup]

/-- A DECODE that does not reach LOOKUP completes after INIT, and leaves the FIFO and the results. -/
theorem exec_of_not_reachesLookup {i : Instr} {s : State} (ready : s.life = .ready) (decodes : i.isDecode = true)
    (noLookup : ¬ reachesLookup i) : ∃ t, exec i s = .next t ∧ t.fifo = s.fifo ∧ t.results = s.results := by
  have notInit : i ≠ .init := by rintro rfl; cases decodes
  refine ⟨_, exec_of_admits ⟨iff_of_true ready notInit, fun look => absurd look noLookup⟩, ?_, ?_⟩
  · rcases fifoAfter_cases i s with same | ⟨code, -, rfl, -⟩ | ⟨rfl, -⟩ | ⟨rfl, -⟩
    · exact same
    · exact absurd (.inr (.inr ⟨code, rfl⟩)) noLookup
    · cases decodes
    · cases decodes
  · by_contra changed
    obtain rfl := resultsAfter_ne changed
    cases decodes

/-- Settles O26: a break byte never reaches LOOKUP. -/
theorem breakBytesPushNothing : Obligations.BreakBytesPushNothing := by
  unfold Obligations.BreakBytesPushNothing
  intro s b ready releaseOrBit
  have brk : isRelease b s.params = true :=
    releaseOrBit.elim id fun ⟨mask, bit⟩ => (isRelease_eq_bit mask b).trans bit
  exact exec_of_not_reachesLookup ready (decodeOf_isDecode b s.params) (break_not_reachesLookup brk)

/-! ## Presses and releases in order (R155, R156, R159, R160) -/

/-- Settles O30: a press that completes has already cleared `ext`, which is all its release does. -/
theorem pressAndReleaseIsOnePress : Obligations.PressAndReleaseIsOnePress := by
  unfold Obligations.PressAndReleaseIsOnePress
  intro s code ready
  rcases outcome_next_or_refused (exec (.keyMk code) s) with ⟨t, completes⟩ | ⟨why, refused⟩
  · rw [execAll_cons_of_next completes, execAll_singleton, completes]
    obtain ⟨-, -, rfl⟩ := makeKey_next.mp completes
    exact otherReleasesAreIgnored _ code (by simpa using ready)
  · simp only [execAll, refused]

/-- Settles O31, by induction on the number of presses: each leaves `caps` and a state of the same kind. -/
theorem capsLockTogglesOncePerRelease : Obligations.CapsLockTogglesOncePerRelease := by
  unfold Obligations.CapsLockTogglesOncePerRelease
  intro n
  induction n with
  | zero =>
    intro s ready _
    exact (execAll_singleton _ s).trans (capsReleaseToggles s ready)
  | succ n ih =>
    intro s ready wf
    obtain ⟨press, -⟩ := lockPressesAreIgnored s ready wf
    rw [List.replicate_succ, List.cons_append, execAll_cons_of_next press]
    exact ih _ ready wf

end Sys2Proof.Machine

/-!
SUPPORT. 43_driver_api.md: what INIT does, what is refused before it and after it (R181, R182, R184), and GETCHAR (R185,
R187).
-/
namespace Sys2Proof.Machine

/-! ## INIT (R181, R182, R184) -/

/-- Settles O11: a DECODE and GETCHAR each have one reason for a refusal before INIT. -/
theorem nothingElseIsAdmittedBeforeInit : Obligations.NothingElseIsAdmittedBeforeInit := by
  unfold Obligations.NothingElseIsAdmittedBeforeInit
  exact fun s uninit =>
    ⟨fun i decodes => exec_refused.mpr (.inl ⟨rfl, uninit, decodes⟩),
      exec_refused.mpr (.inr (.inl ⟨rfl, uninit, rfl⟩))⟩

/-- Settles O12. -/
theorem secondInitIsRefused : Obligations.SecondInitIsRefused :=
  fun _ ready => execInit_refused.mpr ⟨rfl, ready⟩

/-- MOD with no modifier set is the word 0 (10_state.md R23). -/
theorem bits_of_clear : (⟨false, false, false, false⟩ : ModReg).bits = 0 := rfl

/-- Settles O13: INIT leaves `bringUp`, whose FIFO is the old one with its pointers and count 0. -/
theorem initBringsTheBlockUp : Obligations.InitBringsTheBlockUp := by
  unfold Obligations.InitBringsTheBlockUp
  refine fun s => ⟨secondInitIsRefused s, fun uninit => ⟨s.bringUp, init_next.mpr ⟨uninit, rfl⟩, ?_⟩⟩
  simp [bits_of_clear]

/-! ## GETCHAR (R185, R187) -/

/-- After INIT, GETCHAR completes: POP, its result recorded for the caller. -/
theorem exec_getchar_of_ready {s : State} (ready : s.life = .ready) : exec .getchar s =
    .next { s with
      fifo := (s.fifo.pop s.params.capacity).2
      results := s.results ++ [⟨s.caller, (s.fifo.pop s.params.capacity).1⟩] } :=
  getchar_next.mpr ⟨ready, rfl⟩

/-- Settles O32: POP has these two cases. -/
theorem getcharPopsOrReturnsNone : Obligations.GetcharPopsOrReturnsNone := by
  unfold Obligations.GetcharPopsOrReturnsNone
  intro s ready
  rw [exec_getchar_of_ready ready]
  refine ⟨fun empty => by rw [pop_empty empty], fun nonempty => ⟨_, rfl, ?_⟩⟩
  rw [pop_some (Nat.ne_of_gt nonempty)]
  simp [nextIndex, Nat.sub_add_cancel nonempty]

/-- Settles O33: GETCHAR's condition is LIFE, and its POP takes the FIFO and the capacity alone. -/
theorem getcharIsIndependentOfModAndRom : Obligations.GetcharIsIndependentOfModAndRom := by
  unfold Obligations.GetcharIsIndependentOfModAndRom
  intro s m r
  rcases outcome_next_or_refused (exec .getchar s) with ⟨t, completes⟩ | ⟨why, refused⟩
  · rw [completes]
    obtain ⟨ready, rfl⟩ := getchar_next.mp completes
    exact getchar_next.mpr ⟨ready, rfl⟩
  · rw [refused]
    exact execGetchar_refused.mpr (execGetchar_refused (s := s).mp refused)

end Sys2Proof.Machine

/-!
SUPPORT. 60_exceptions.md: the block checks nothing about the caller (R208), whose name a GETCHAR result alone carries
(43_driver_api.md R186).
-/
namespace Sys2Proof.Machine

/-- No transaction's FIFO depends on who issued it. -/
theorem fifoAfter_withCaller (i : Instr) (s : State) (a : Agent) :
    fifoAfter i { s with caller := a } = fifoAfter i s := by
  cases i with
  | keyMk code =>
    have emitted : ({ s with caller := a } : State).emitted code = s.emitted code := rfl
    simp only [fifoAfter, emitted]
    cases s.emitted code <;> rfl
  | _ => rfl

/-- Only GETCHAR writes the caller's name, beside its result. -/
theorem stateAfter_withCaller {i : Instr} (notGetchar : i ≠ .getchar) (s : State) (a : Agent) :
    stateAfter i { s with caller := a } = { stateAfter i s with caller := a } := by
  simp [stateAfter, fifoAfter_withCaller, resultsAfter, notGetchar, lifeAfter]

/-- Whether a transaction completes and why it is refused do not depend on the caller. -/
theorem exec_withCaller {i : Instr} (notGetchar : i ≠ .getchar) (s : State) (a : Agent) :
    exec i { s with caller := a } = mapNext (fun t => { t with caller := a }) (exec i s) := by
  rcases outcome_next_or_refused (exec i s) with ⟨t, completes⟩ | ⟨why, refused⟩
  · rw [completes]
    obtain ⟨admitted, rfl⟩ := exec_next.mp completes
    exact exec_next.mpr ⟨admitted, stateAfter_withCaller notGetchar s a⟩
  · rw [refused]
    exact exec_refused.mpr (exec_refused (s := s).mp refused)

/-- Settles O38: GETCHAR completes on LIFE alone, and its POP takes the FIFO and the capacity, not the caller. -/
theorem callerIsNeverChecked : Obligations.CallerIsNeverChecked := by
  unfold Obligations.CallerIsNeverChecked
  refine fun i s a => ⟨fun notGetchar => exec_withCaller notGetchar s a, fun t completes => ?_⟩
  obtain ⟨ready, rfl⟩ := getchar_next.mp completes
  exact ⟨(s.fifo.pop s.params.capacity).1, rfl, getchar_next.mpr ⟨ready, rfl⟩⟩

end Sys2Proof.Machine

/-!
SUPPORT. Power-on and reset (70_reset_and_hazards.md R230): a block that is UNINIT admits INIT alone.
-/
namespace Sys2Proof.Machine

/-- Before INIT every other transaction is refused, whatever it is (R182). -/
theorem exec_refused_of_uninit {s : State} (uninit : s.life = .uninit) {i : Instr} (notInit : i ≠ .init) :
    ∃ r, exec i s = .refused r := by
  obtain ⟨decodeRefused, getcharRefused⟩ := nothingElseIsAdmittedBeforeInit s uninit
  rcases isDecode_or_getchar_or_init i with decodes | rfl | isInit
  · exact ⟨_, decodeRefused i decodes⟩
  · exact ⟨_, getcharRefused⟩
  · exact absurd isInit notInit

/-- An UNINIT block performs INIT (R181). -/
theorem exec_init_of_uninit {s : State} (uninit : s.life = .uninit) : ∃ t, exec .init s = .next t :=
  ⟨s.bringUp, init_next.mpr ⟨uninit, rfl⟩⟩

/-- Settles O10: power-on is UNINIT whatever the parameters and the ROM, and this hardware's reset is a power-on (log
entry 10). -/
theorem powerOnAdmitsOnlyInit : Obligations.PowerOnAdmitsOnlyInit := by
  unfold Obligations.PowerOnAdmitsOnlyInit
  have uninit (P : Config.Params) (rom : Rom) : (State.powerOn P rom).life = .uninit := rfl
  have resetUninit : State.reset.life = .uninit := uninit Config.hw referenceFill
  exact ⟨fun P rom => ⟨uninit P rom, rfl, rfl, fun _ => exec_refused_of_uninit (uninit P rom),
      exec_init_of_uninit (uninit P rom)⟩,
    resetUninit, rfl, rfl, fun _ => exec_refused_of_uninit resetUninit, exec_init_of_uninit resetUninit⟩

end Sys2Proof.Machine
